-- ==== Sys2Proof/Word.lean ====
section
/-! DEFINITION. The words of the CHIP-8 core: bytes, 16-bit words, 12-bit addresses and register indices (spec/00_scope.md R6, R7). -/

namespace Sys2Proof

/-- A byte: a memory cell, a general register, a timer or an 8-bit immediate (R6, R20). -/
abbrev Byte := BitVec 8

/-- A 16-bit word: an instruction, `PC`, `I` or an entry of the call stack (R23, R26, R29, R70). -/
abbrev Word := BitVec 16

/-- A 12-bit address operand, the field `NNN` (R5 `ADDR_BITS`, R72). -/
abbrev Addr12 := BitVec 12

/-- The number of one of the sixteen general registers V0..VF (R20, R21). -/
abbrev Reg := Fin 16

/-- VF, the register that several instructions also write as a flag (R25). -/
abbrev vf : Reg := 15

/-- The sampled state of the sixteen keys, `true` = down (R38). -/
abbrev Keys := Vector Bool 16

/-- The framebuffer in its packed form: 256 bytes, eight to a row (R36). -/
abbrev Framebuffer := Vector Byte 256

end Sys2Proof
end

