-- ==== Sys2Proof/Syntax.lean ====
section
/-! DEFINITION. The 35 instruction forms, one constructor per row of spec/opcode_table.json (spec/30_encoding.md R75). -/

namespace Sys2Proof

/-- An instruction with its operand fields (R72): `x`, `y` are the fields `X`, `Y`; `kk` the 8-bit immediate `KK`;
`nnn` the 12-bit address `NNN`; `n` the row count `N`. -/
inductive Instr where
  /-- `00E0` (R151) -/
  | cls
  /-- `00EE` (R122) -/
  | ret
  /-- `0NNN` other than `00E0` and `00EE`; the field is kept and ignored (R78, R79, R120) -/
  | sys (nnn : Addr12)
  /-- `1NNN` (R121) -/
  | jmp (nnn : Addr12)
  /-- `2NNN` (R123) -/
  | call (nnn : Addr12)
  /-- `3XKK` (R126) -/
  | skipEqImm (x : Reg) (kk : Byte)
  /-- `4XKK` (R127) -/
  | skipNeImm (x : Reg) (kk : Byte)
  /-- `5XY0` (R128) -/
  | skipEqReg (x y : Reg)
  /-- `6XKK` (R102) -/
  | loadImm (x : Reg) (kk : Byte)
  /-- `7XKK` (R103) -/
  | addImm (x : Reg) (kk : Byte)
  /-- `8XY0` (R104) -/
  | loadReg (x y : Reg)
  /-- `8XY1` (R105) -/
  | or (x y : Reg)
  /-- `8XY2` (R106) -/
  | and (x y : Reg)
  /-- `8XY3` (R107) -/
  | xor (x y : Reg)
  /-- `8XY4` (R108) -/
  | addReg (x y : Reg)
  /-- `8XY5` (R109) -/
  | subVx (x y : Reg)
  /-- `8XY6`; the field `Y` is decoded and ignored (R79, R110) -/
  | shiftRight (x y : Reg)
  /-- `8XY7` (R111) -/
  | subRev (x y : Reg)
  /-- `8XYE`; the field `Y` is decoded and ignored (R79, R112) -/
  | shiftLeft (x y : Reg)
  /-- `9XY0` (R129) -/
  | skipNeReg (x y : Reg)
  /-- `ANNN` (R141) -/
  | loadI (nnn : Addr12)
  /-- `BNNN` (R124) -/
  | jmpV0 (nnn : Addr12)
  /-- `CXKK` (R166) -/
  | rand (x : Reg) (kk : Byte)
  /-- `DXYN` (R152) -/
  | draw (x y : Reg) (n : Fin 16)
  /-- `EX9E` (R167) -/
  | skipKey (x : Reg)
  /-- `EXA1` (R168) -/
  | skipNotKey (x : Reg)
  /-- `FX07` (R170) -/
  | loadDelay (x : Reg)
  /-- `FX0A` (R169) -/
  | loadKey (x : Reg)
  /-- `FX15` (R171) -/
  | setDelay (x : Reg)
  /-- `FX18` (R172) -/
  | setSound (x : Reg)
  /-- `FX1E` (R142) -/
  | addI (x : Reg)
  /-- `FX29` (R143) -/
  | loadFont (x : Reg)
  /-- `FX33` (R144) -/
  | loadBcd (x : Reg)
  /-- `FX55` (R145) -/
  | storeRegisters (x : Reg)
  /-- `FX65` (R146) -/
  | loadRegisters (x : Reg)
  deriving DecidableEq, Repr

end Sys2Proof
end

