-- ==== Sys2Proof/WellFormed.lean ====
section
/-! DEFINITION. Which terms of `Instr` are instructions. The operand types already bound every field (spec/10_state.md R21), so the one check left is that `Sys` does not take the words of `Cls` and `Ret` (spec/30_encoding.md R78). -/

namespace Sys2Proof

/-- `Sys` takes "every word `0NNN` other than 0x00E0 and 0x00EE" (R78). -/
def sysFieldOk (nnn : Addr12) : Bool := nnn != 0x0E0 && nnn != 0x0EE

/-- `i` is one of the instructions of R75. -/
def Instr.wf (i : Instr) : Bool :=
  match i with
  | .sys nnn => sysFieldOk nnn
  | .cls | .ret | .jmp _ | .call _ | .skipEqImm _ _ | .skipNeImm _ _ | .skipEqReg _ _
  | .loadImm _ _ | .addImm _ _ | .loadReg _ _ | .or _ _ | .and _ _ | .xor _ _
  | .addReg _ _ | .subVx _ _ | .shiftRight _ _ | .subRev _ _ | .shiftLeft _ _
  | .skipNeReg _ _ | .loadI _ | .jmpV0 _ | .rand _ _ | .draw _ _ _
  | .skipKey _ | .skipNotKey _ | .loadDelay _ | .loadKey _ | .setDelay _ | .setSound _
  | .addI _ | .loadFont _ | .loadBcd _ | .storeRegisters _ | .loadRegisters _ => true

end Sys2Proof
end

