-- ==== Sys2Proof/Decode.lean ====
section
/-! DEFINITION. The decoder (spec/30_encoding.md R70 to R79), the encoder written from the same table, and that table (R75). -/

namespace Sys2Proof

/-! ## The fields of an instruction word (R71, R72) -/

/-- `N1`, bits 15..12, the primary selector (R71). -/
def fieldN1 (w : Word) : BitVec 4 := w.extractLsb' 12 4

/-- `N4`, bits 3..0, a sub-selector (R71). -/
def fieldN4 (w : Word) : BitVec 4 := w.extractLsb' 0 4

/-- `X`, bits 11..8, a register index (R72). -/
def fieldX (w : Word) : Reg := (w.extractLsb' 8 4).toFin

/-- `Y`, bits 7..4, a register index (R72). -/
def fieldY (w : Word) : Reg := (w.extractLsb' 4 4).toFin

/-- `N`, bits 3..0, a count of sprite rows (R72). -/
def fieldN (w : Word) : Fin 16 := (w.extractLsb' 0 4).toFin

/-- `KK`, bits 7..0, an immediate or a sub-selector (R72, R73). -/
def fieldKK (w : Word) : Byte := w.extractLsb' 0 8

/-- `NNN`, bits 11..0, an address (R72, R73). -/
def fieldNNN (w : Word) : Addr12 := w.extractLsb' 0 12

/-! ## The decoder (R76) -/

/-- Why a word, or a string of bytes, is no instruction (R77). -/
inductive DecodeError where
  /-- fewer than the two bytes of an instruction (R70) -/
  | tooShort
  /-- `5XYn` with `n ≠ 0` -/
  | illegal5 (n : BitVec 4)
  /-- `8XYn` with `n` in 8, 9, A, B, C, D, F -/
  | illegal8 (n : BitVec 4)
  /-- `9XYn` with `n ≠ 0` -/
  | illegal9 (n : BitVec 4)
  /-- `EXkk` with `kk` neither 9E nor A1 -/
  | illegalE (kk : Byte)
  /-- `FXkk` with `kk` not one of the nine sub-selectors of the F group -/
  | illegalF (kk : Byte)
  deriving DecidableEq, Repr

/-- The group `N1` = 0: `Cls` and `Ret` before `Sys` (R75, R76). -/
def decodeGroup0 (w : Word) : Instr :=
  if w = 0x00E0 then .cls else if w = 0x00EE then .ret else .sys (fieldNNN w)

/-- The group `N1` = 8, by `N4` (R76). -/
def decodeGroup8 (x y : Reg) (n4 : BitVec 4) : Except DecodeError Instr :=
  if n4 = 0x0 then .ok (.loadReg x y)
  else if n4 = 0x1 then .ok (.or x y)
  else if n4 = 0x2 then .ok (.and x y)
  else if n4 = 0x3 then .ok (.xor x y)
  else if n4 = 0x4 then .ok (.addReg x y)
  else if n4 = 0x5 then .ok (.subVx x y)
  else if n4 = 0x6 then .ok (.shiftRight x y)
  else if n4 = 0x7 then .ok (.subRev x y)
  else if n4 = 0xE then .ok (.shiftLeft x y)
  else .error (.illegal8 n4)

/-- The group `N1` = E, by `KK` (R76). -/
def decodeGroupE (x : Reg) (kk : Byte) : Except DecodeError Instr :=
  if kk = 0x9E then .ok (.skipKey x)
  else if kk = 0xA1 then .ok (.skipNotKey x)
  else .error (.illegalE kk)

/-- The group `N1` = F, by `KK` (R76). -/
def decodeGroupF (x : Reg) (kk : Byte) : Except DecodeError Instr :=
  if kk = 0x07 then .ok (.loadDelay x)
  else if kk = 0x0A then .ok (.loadKey x)
  else if kk = 0x15 then .ok (.setDelay x)
  else if kk = 0x18 then .ok (.setSound x)
  else if kk = 0x1E then .ok (.addI x)
  else if kk = 0x29 then .ok (.loadFont x)
  else if kk = 0x33 then .ok (.loadBcd x)
  else if kk = 0x55 then .ok (.storeRegisters x)
  else if kk = 0x65 then .ok (.loadRegisters x)
  else .error (.illegalF kk)

/-- The instruction of a word, by its primary selector, or the reason there is none (R76, R77). -/
def decodeWord (w : Word) : Except DecodeError Instr :=
  if fieldN1 w = 0x0 then .ok (decodeGroup0 w)
  else if fieldN1 w = 0x1 then .ok (.jmp (fieldNNN w))
  else if fieldN1 w = 0x2 then .ok (.call (fieldNNN w))
  else if fieldN1 w = 0x3 then .ok (.skipEqImm (fieldX w) (fieldKK w))
  else if fieldN1 w = 0x4 then .ok (.skipNeImm (fieldX w) (fieldKK w))
  else if fieldN1 w = 0x5 then
    if fieldN4 w = 0 then .ok (.skipEqReg (fieldX w) (fieldY w)) else .error (.illegal5 (fieldN4 w))
  else if fieldN1 w = 0x6 then .ok (.loadImm (fieldX w) (fieldKK w))
  else if fieldN1 w = 0x7 then .ok (.addImm (fieldX w) (fieldKK w))
  else if fieldN1 w = 0x8 then decodeGroup8 (fieldX w) (fieldY w) (fieldN4 w)
  else if fieldN1 w = 0x9 then
    if fieldN4 w = 0 then .ok (.skipNeReg (fieldX w) (fieldY w)) else .error (.illegal9 (fieldN4 w))
  else if fieldN1 w = 0xA then .ok (.loadI (fieldNNN w))
  else if fieldN1 w = 0xB then .ok (.jmpV0 (fieldNNN w))
  else if fieldN1 w = 0xC then .ok (.rand (fieldX w) (fieldKK w))
  else if fieldN1 w = 0xD then .ok (.draw (fieldX w) (fieldY w) (fieldN w))
  else if fieldN1 w = 0xE then decodeGroupE (fieldX w) (fieldKK w)
  else decodeGroupF (fieldX w) (fieldKK w)

/-- `word = {mem[a], mem[a+1]}`: the byte at the lower address is bits 15..8 (R52, R70). -/
def wordOfBytes (high low : Byte) : Word := high ++ low

/-- The byte at the lower address of a stored instruction (R70). -/
def highByte (w : Word) : Byte := w.extractLsb' 8 8

/-- The byte at the higher address of a stored instruction (R70). -/
def lowByte (w : Word) : Byte := w.extractLsb' 0 8

/-- The instruction at the head of a string of bytes, with the bytes after it (R70). -/
def decodeBytes (bytes : List Byte) : Except DecodeError (Instr × List Byte) :=
  match bytes with
  | high :: low :: rest =>
    match decodeWord (wordOfBytes high low) with
    | .ok i => .ok (i, rest)
    | .error e => .error e
  | [_] | [] => .error .tooShort

/-! ## The encoder, from the patterns of R75 -/

/-- The four bits of a register or count field. -/
def fieldBits (r : Fin 16) : BitVec 4 := BitVec.ofFin r

/-- The format `NNN` (R72). -/
def packNNN (n1 : BitVec 4) (nnn : Addr12) : Word := n1 ++ nnn

/-- The formats `XKK` and `X` (R72). -/
def packXKK (n1 : BitVec 4) (x : Reg) (kk : Byte) : Word := n1 ++ fieldBits x ++ kk

/-- The formats `XY` and `XYN` (R72). -/
def packXYN (n1 : BitVec 4) (x y : Reg) (n4 : BitVec 4) : Word := n1 ++ fieldBits x ++ fieldBits y ++ n4

/-- The word of an instruction (R75). -/
def encode (i : Instr) : Word :=
  match i with
  | .cls => 0x00E0
  | .ret => 0x00EE
  | .sys nnn => packNNN 0x0 nnn
  | .jmp nnn => packNNN 0x1 nnn
  | .call nnn => packNNN 0x2 nnn
  | .skipEqImm x kk => packXKK 0x3 x kk
  | .skipNeImm x kk => packXKK 0x4 x kk
  | .skipEqReg x y => packXYN 0x5 x y 0x0
  | .loadImm x kk => packXKK 0x6 x kk
  | .addImm x kk => packXKK 0x7 x kk
  | .loadReg x y => packXYN 0x8 x y 0x0
  | .or x y => packXYN 0x8 x y 0x1
  | .and x y => packXYN 0x8 x y 0x2
  | .xor x y => packXYN 0x8 x y 0x3
  | .addReg x y => packXYN 0x8 x y 0x4
  | .subVx x y => packXYN 0x8 x y 0x5
  | .shiftRight x y => packXYN 0x8 x y 0x6
  | .subRev x y => packXYN 0x8 x y 0x7
  | .shiftLeft x y => packXYN 0x8 x y 0xE
  | .skipNeReg x y => packXYN 0x9 x y 0x0
  | .loadI nnn => packNNN 0xA nnn
  | .jmpV0 nnn => packNNN 0xB nnn
  | .rand x kk => packXKK 0xC x kk
  | .draw x y n => packXYN 0xD x y (fieldBits n)
  | .skipKey x => packXKK 0xE x 0x9E
  | .skipNotKey x => packXKK 0xE x 0xA1
  | .loadDelay x => packXKK 0xF x 0x07
  | .loadKey x => packXKK 0xF x 0x0A
  | .setDelay x => packXKK 0xF x 0x15
  | .setSound x => packXKK 0xF x 0x18
  | .addI x => packXKK 0xF x 0x1E
  | .loadFont x => packXKK 0xF x 0x29
  | .loadBcd x => packXKK 0xF x 0x33
  | .storeRegisters x => packXKK 0xF x 0x55
  | .loadRegisters x => packXKK 0xF x 0x65

/-- The two bytes of an instruction as memory holds them, lowest address first (R52, R70). -/
def encodeBytes (i : Instr) : List Byte := [highByte (encode i), lowByte (encode i)]

/-! ## The opcode map as a table (R75) -/

/-- One row of R75: the fixed bits of a form (`mask`), their values (`pattern`), and its table id. -/
structure OpcodeRow where
  mask : Word
  pattern : Word
  mnemonic : String
  deriving DecidableEq, Repr

/-- The rows with one word, a 12-bit address or an 8-bit immediate. Rows 2 and 3 of R75 stand first:
"rows 2 and 3 are tested before row 1". -/
def opcodeRowsByN1 : List OpcodeRow :=
  [⟨0xFFFF, 0x00E0, "Cls"⟩, ⟨0xFFFF, 0x00EE, "Ret"⟩, ⟨0xF000, 0x0000, "Sys"⟩, ⟨0xF000, 0x1000, "Jmp"⟩,
   ⟨0xF000, 0x2000, "Call"⟩, ⟨0xF000, 0x3000, "SkipEqImm"⟩, ⟨0xF000, 0x4000, "SkipNeImm"⟩,
   ⟨0xF000, 0x6000, "LoadImm"⟩, ⟨0xF000, 0x7000, "AddImm"⟩, ⟨0xF000, 0xA000, "LoadI"⟩,
   ⟨0xF000, 0xB000, "JmpV0"⟩, ⟨0xF000, 0xC000, "Rand"⟩, ⟨0xF000, 0xD000, "Draw"⟩]

/-- The rows told apart by `N4`. -/
def opcodeRowsByN4 : List OpcodeRow :=
  [⟨0xF00F, 0x5000, "SkipEqReg"⟩, ⟨0xF00F, 0x8000, "LoadReg"⟩, ⟨0xF00F, 0x8001, "Or"⟩,
   ⟨0xF00F, 0x8002, "And"⟩, ⟨0xF00F, 0x8003, "Xor"⟩, ⟨0xF00F, 0x8004, "AddReg"⟩,
   ⟨0xF00F, 0x8005, "SubVx"⟩, ⟨0xF00F, 0x8006, "ShiftRight"⟩, ⟨0xF00F, 0x8007, "SubRev"⟩,
   ⟨0xF00F, 0x800E, "ShiftLeft"⟩, ⟨0xF00F, 0x9000, "SkipNeReg"⟩]

/-- The rows told apart by `KK`. -/
def opcodeRowsByKK : List OpcodeRow :=
  [⟨0xF0FF, 0xE09E, "SkipKey"⟩, ⟨0xF0FF, 0xE0A1, "SkipNotKey"⟩, ⟨0xF0FF, 0xF007, "LoadDelay"⟩,
   ⟨0xF0FF, 0xF00A, "LoadKey"⟩, ⟨0xF0FF, 0xF015, "SetDelay"⟩, ⟨0xF0FF, 0xF018, "SetSound"⟩,
   ⟨0xF0FF, 0xF01E, "AddI"⟩, ⟨0xF0FF, 0xF029, "LoadFont"⟩, ⟨0xF0FF, 0xF033, "LoadBcd"⟩,
   ⟨0xF0FF, 0xF055, "StoreRegisters"⟩, ⟨0xF0FF, 0xF065, "LoadRegisters"⟩]

/-- The opcode map, in an order in which the first matching row is the word's form (R75). -/
def opcodeTable : List OpcodeRow := opcodeRowsByN1 ++ opcodeRowsByN4 ++ opcodeRowsByKK

/-- A word matches a row when its fixed bits are the row's: `word & mask = match` (R75). -/
def OpcodeRow.selects (row : OpcodeRow) (w : Word) : Bool := w &&& row.mask == row.pattern

/-- The table id of the first row of R75 that a word matches; none for an illegal word (R75, R77). -/
def tableMnemonic (w : Word) : Option String := (opcodeTable.find? (·.selects w)).map (·.mnemonic)

/-- The table id of an instruction's form (R75). -/
def Instr.mnemonic (i : Instr) : String :=
  match i with
  | .cls => "Cls"
  | .ret => "Ret"
  | .sys _ => "Sys"
  | .jmp _ => "Jmp"
  | .call _ => "Call"
  | .skipEqImm _ _ => "SkipEqImm"
  | .skipNeImm _ _ => "SkipNeImm"
  | .skipEqReg _ _ => "SkipEqReg"
  | .loadImm _ _ => "LoadImm"
  | .addImm _ _ => "AddImm"
  | .loadReg _ _ => "LoadReg"
  | .or _ _ => "Or"
  | .and _ _ => "And"
  | .xor _ _ => "Xor"
  | .addReg _ _ => "AddReg"
  | .subVx _ _ => "SubVx"
  | .shiftRight _ _ => "ShiftRight"
  | .subRev _ _ => "SubRev"
  | .shiftLeft _ _ => "ShiftLeft"
  | .skipNeReg _ _ => "SkipNeReg"
  | .loadI _ => "LoadI"
  | .jmpV0 _ => "JmpV0"
  | .rand _ _ => "Rand"
  | .draw _ _ _ => "Draw"
  | .skipKey _ => "SkipKey"
  | .skipNotKey _ => "SkipNotKey"
  | .loadDelay _ => "LoadDelay"
  | .loadKey _ => "LoadKey"
  | .setDelay _ => "SetDelay"
  | .setSound _ => "SetSound"
  | .addI _ => "AddI"
  | .loadFont _ => "LoadFont"
  | .loadBcd _ => "LoadBcd"
  | .storeRegisters _ => "StoreRegisters"
  | .loadRegisters _ => "LoadRegisters"

/-! ## The decoder on a row of spec/opcode_table.json -/

/-- What the decoder reads from an instruction whose bits are `w`, numbered as the opcode table numbers them: the table's
words are 16 bits, stored high byte first (R52), and the bits from `nbits` up are 0. -/
def decodeTableWord (nbits w : Nat) : Option Instr :=
  let word : Word := BitVec.ofNat 16 (w % 2 ^ nbits)
  match decodeBytes [highByte word, lowByte word] with
  | .ok (i, _) => some i
  | .error _ => none

end Sys2Proof
end

