-- ==== Sys2Proof/Machine/Flags.lean ====
section
/-! DEFINITION. The flag each flag-writing instruction leaves in VF, from the operand values before it (spec/41_alu.md R101, spec/43_index_memory.md R142). The collision flag of `Draw` is `Canvas.coll` (Machine/Framebuffer.lean). -/

namespace Sys2Proof.Machine

/-- A flag as the value VF receives, 0 or 1 (R25). -/
def flagByte (f : Bool) : Byte := if f then 1 else 0

/-- `AddReg`: "1 if `a + b > 255`" (R101, R108). -/
def carryFlag (a b : Byte) : Bool := decide (a.toNat + b.toNat > 255)

/-- `SubVx` and `SubRev`: 1 if the minuend is strictly greater (R101, R109, R111, 90_conflicts.md C2). -/
def greaterFlag (minuend subtrahend : Byte) : Bool := decide (minuend.toNat > subtrahend.toNat)

/-- `ShiftRight`: `a[0]`, the bit shifted out (R101, R110). -/
def shiftRightFlag (a : Byte) : Bool := a.getLsbD 0

/-- `ShiftLeft`: `a[7]`, the bit shifted out (R101, R112). -/
def shiftLeftFlag (a : Byte) : Bool := a.getLsbD 7

/-- The exact sum of `AddI` (R142). -/
def indexSum (index : Word) (a : Byte) : Nat := index.toNat + a.toNat

/-- `AddI`: "1 if s > 0xFFF" (R142). -/
def indexFlag (index : Word) (a : Byte) : Bool := decide (indexSum index a > 0xFFF)

end Sys2Proof.Machine
end

