-- ==== Sys2Proof/Config.lean ====
section
/-! DEFINITION. What an implementation fixes (the parameters of spec/00_scope.md R5 that a model takes as arguments) and the free values (what comes from outside and no rule constrains). The values derived from a `Config` and its defaults are in Machine/Parameters.lean. -/

namespace Sys2Proof

/-- `MEM_SIZE`, the memory capacity: 4096 bytes, "the only other admitted value is 4095" (R5, 90_conflicts.md C1). -/
inductive MemSize where
  | bytes4096
  | bytes4095
  deriving DecidableEq, Repr, Inhabited

/-- `VF_PRIORITY`: which write survives when a result and a flag both go to VF (R5, R95). -/
inductive VfPriority where
  | flagWins
  | resultWins
  deriving DecidableEq, Repr, Inhabited

/-- The arguments of the hardware (R5), fixed for a run (R43). -/
structure Config where
  /-- `MEM_SIZE` -/
  memSize : MemSize
  /-- the strap `ETI660`, which selects `ORIGIN` (R211) -/
  eti660 : Bool
  /-- `STACK_DEPTH`, the number of call-stack entries (R29) -/
  stackDepth : Nat
  /-- `VF_PRIORITY` -/
  vfPriority : VfPriority
  /-- `FONT`: sixteen glyphs of five bytes each (R57, R58) -/
  font : Vector (Vector Byte 5) 16
  /-- `CPS`, instructions per second (R195) -/
  cps : Nat
  /-- `GUARD`: one extra instruction per frame (R195) -/
  guardCycle : Bool
  deriving DecidableEq, Repr

/-- What the host may do while a `LoadKey` waits (R206): rewrite the sampled keys, or report a key press. -/
inductive WaitEvent where
  | poll (keys : Keys)
  | press (k : Fin 16)
  deriving DecidableEq, Repr, Inhabited

/-- FREE VALUE: the byte that the `rand_byte` input supplies at draw number `n` (R166, R202; log entry 1). -/
opaque Config.freeRandByte (n : Nat) : Byte

/-- FREE VALUE: the keys the host leaves at the frame's poll, at draw number `n` (R199; log entry 2). -/
opaque Config.freePolledKeys (n : Nat) : Keys

/-- FREE VALUE: the host's move in `WAIT_KEY`, at draw number `n` (R169, R199, R200; log entry 3). -/
opaque Config.freeWaitEvent (n : Nat) : WaitEvent

end Sys2Proof
end

