-- ==== Sys2Proof/Machine/Parameters.lean ====
section
/-! DEFINITION. The values derived from a configuration, the configurations the spec admits, and the default one (spec/00_scope.md R5, spec/20_memory.md R58, spec/60_exceptions.md R195). -/

namespace Sys2Proof

/-- `MEM_SIZE` in bytes (R5). -/
def Config.memBytes (c : Config) : Nat :=
  match c.memSize with
  | .bytes4096 => 4096
  | .bytes4095 => 4095

/-- `ORIGIN`: 0x200, or 0x600 with the `ETI660` strap (R5, R211). -/
def Config.origin (c : Config) : Word := if c.eti660 then 0x600 else 0x200

/-- `GUARD` as a number (R195). -/
def Config.guardCount (c : Config) : Nat := if c.guardCycle then 1 else 0

/-- `IPF = floor(CPS / 60) + GUARD`, the instructions of one frame (R195). -/
def Config.ipf (c : Config) : Nat := c.cps / 60 + c.guardCount

/-- The configurations the spec admits: `STACK_DEPTH >= 16` (R5), at most 255 because the 8-bit `SP` counts the entries
(R28; DEDUCED, log entry 5); `CPS >= 1` and `IPF >= 1` (R195, 93_implementation_defined.md U19). -/
abbrev Config.wf (c : Config) : Prop :=
  16 ≤ c.stackDepth ∧ c.stackDepth ≤ 255 ∧ 1 ≤ c.cps ∧ 1 ≤ c.ipf

/-- The default glyphs (R58). -/
def defaultFont : Vector (Vector Byte 5) 16 :=
  #v[#v[0xF0, 0x90, 0x90, 0x90, 0xF0],
     #v[0x20, 0x60, 0x20, 0x20, 0x70],
     #v[0xF0, 0x10, 0xF0, 0x80, 0xF0],
     #v[0xF0, 0x10, 0xF0, 0x10, 0xF0],
     #v[0x90, 0x90, 0xF0, 0x10, 0x10],
     #v[0xF0, 0x80, 0xF0, 0x10, 0xF0],
     #v[0xF0, 0x80, 0xF0, 0x90, 0xF0],
     #v[0xF0, 0x10, 0x20, 0x40, 0x40],
     #v[0xF0, 0x90, 0xF0, 0x90, 0xF0],
     #v[0xF0, 0x90, 0xF0, 0x10, 0xF0],
     #v[0xF0, 0x90, 0xF0, 0x90, 0x90],
     #v[0xE0, 0x90, 0xE0, 0x90, 0xE0],
     #v[0xF0, 0x80, 0x80, 0x80, 0xF0],
     #v[0xE0, 0x90, 0x90, 0x90, 0xE0],
     #v[0xF0, 0x80, 0xF0, 0x80, 0xF0],
     #v[0xF0, 0x80, 0xF0, 0x80, 0x80]]

/-- The configuration with every argument at its default (R5). -/
def Config.default : Config where
  memSize := .bytes4096
  eti660 := false
  stackDepth := 16
  vfPriority := .flagWins
  font := defaultFont
  cps := 1000
  guardCycle := false

end Sys2Proof
end

