-- ==== Sys2Proof/Machine/Memory.lean ====
section
/-! DEFINITION. Memory as a list of cells in one canonical form, and its reads and writes of one byte and of a range (spec/10_state.md R32, R33, spec/20_memory.md R50, R51, R57). The bounds check stands in Machine/Ops.lean. -/

namespace Sys2Proof.Machine

/-- The bytes that differ from their value at reset, by rising address (R32). -/
abbrev Memory := List Host.Cell

/-- What an unlisted address reads as: its value at reset, the font at 0..79 and 0 elsewhere (R33, R57). -/
def Memory.initial (c : Config) (a : Nat) : Byte :=
  if h : a < 80 then c.font[a / 5][a % 5] else 0

/-- `mem[a]` (R8). -/
def Memory.read (c : Config) (m : Memory) (a : Nat) : Byte :=
  match m with
  | [] => Memory.initial c a
  | (b, v) :: rest => if b = a then v else Memory.read c rest a

/-- A cell for address `a` in front of `rest`, unless `v` is what an unlisted `a` reads as. -/
def Memory.cons (c : Config) (a : Nat) (v : Byte) (rest : Memory) : Memory :=
  if v = Memory.initial c a then rest else (a, v) :: rest

/-- `mem[a] <- v`, keeping the canonical form (R8). -/
def Memory.write (c : Config) (m : Memory) (a : Nat) (v : Byte) : Memory :=
  match m with
  | [] => Memory.cons c a v []
  | (b, u) :: rest =>
    if a < b then Memory.cons c a v ((b, u) :: rest)
    else if a = b then Memory.cons c a v rest
    else (b, u) :: Memory.write c rest a v

/-- `[ mem[a], ..., mem[a+n-1] ]`, lowest address first (R50). -/
def Memory.readRange (c : Config) (m : Memory) (a n : Nat) : List Byte :=
  match n with
  | 0 => []
  | k + 1 => Memory.read c m a :: Memory.readRange c m (a + 1) k

/-- `for k in 0 .. n-1: mem[a + k] <- v[k]` (R51). -/
def Memory.writeRange (c : Config) (m : Memory) (a : Nat) (bytes : List Byte) : Memory :=
  match bytes with
  | [] => m
  | b :: rest => Memory.writeRange c (Memory.write c m a b) (a + 1) rest

/-- The canonical form: addresses strictly rising and inside the memory (R32), and no cell that holds what an unlisted
address reads as. Equal memories are then equal lists. -/
abbrev Memory.wf (c : Config) (m : Memory) : Prop :=
  m.Pairwise (fun p q => p.1 < q.1) ∧ ∀ p ∈ m, p.1 < c.memBytes ∧ p.2 ≠ Memory.initial c p.1

end Sys2Proof.Machine
end

