-- ==== Sys2Proof/Machine/State.lean ====
section
/-! DEFINITION. Everything the spec gives the machine as state (spec/10_state.md R20 to R43, summary R42), the reasons a step can stop, and the state after reset (spec/70_reset_and_hazards.md R210). -/

namespace Sys2Proof.Machine

/-- The sequencer's state between instructions (R39). -/
inductive Phase where
  | run
  | waitKey
  | halted
  deriving DecidableEq, Repr

/-- A fatal fault with its recorded information (R9, R180). -/
inductive FaultRecord where
  /-- `OutOfBounds(addr, len)`, by fetch, `Draw`, `LoadBcd`, `StoreRegisters`, `LoadRegisters` (R181) -/
  | outOfBounds (addr len : Nat)
  /-- `DecodeFailure(word, addr)`, by decode (R182) -/
  | decodeFailure (word addr : Word)
  /-- `StackUnderflow(addr)`, by `Ret` (R183) -/
  | stackUnderflow (addr : Word)
  /-- `StackOverflow(addr)`, by `Call` (R184) -/
  | stackOverflow (addr : Word)
  /-- `IndexOutOfRange(value, addr)`, by `SkipKey` and `SkipNotKey` (R185) -/
  | indexOutOfRange (value : Byte) (addr : Word)
  deriving DecidableEq, Repr

/-- The move that the frame sequencer makes next once the frame's instructions are done (R194). The spec gives the order
of these moves and names no register for the place in it: a field of the model's own (log entry 6). -/
inductive FrameMove where
  | tick
  | render
  | poll
  deriving DecidableEq, Repr

/-- Why the machine can take no step. -/
inductive Fault where
  /-- Raised by `step` in phase `HALTED`: after its first fault the machine "takes no further `Step` or `Tick` until reset"
  (R180), and this carries the fault record that the `fault` output shows (R186). Safe: the spec gives no further move. -/
  | halted (record : Option FaultRecord)
  deriving DecidableEq, Repr

/-- Why the model gives no meaning. -/
inductive Refusal where
  /-- Raised by `exec` for an instruction that has no meaning yet. Safe: nothing is claimed of it. -/
  | notModelled (mnemonic : String)
  /-- Raised by `step` in a configuration the spec does not admit: "a model refuses such a configuration" (R195).
  Safe: nothing is claimed of such a machine. -/
  | unsupportedConfiguration
  deriving DecidableEq, Repr

/-- The state of the CHIP-8 core. -/
structure State where
  /-- the arguments of the hardware, fixed for a run (R5, R43; the model's own field, log entry 4) -/
  cfg : Config
  /-- V0..VF (R20) -/
  x : Vector Byte 16
  /-- the program counter (R23) -/
  pc : Word
  /-- the index register `I` (R26) -/
  i : Word
  /-- the number of return addresses on the call stack (R28) -/
  sp : Byte
  /-- the call stack's `STACK_DEPTH` entries, entry 0 first (R29) -/
  stack : List Word
  /-- the delay timer (R30) -/
  dt : Byte
  /-- the sound timer (R31) -/
  st : Byte
  /-- memory (R32) -/
  mem : Memory
  /-- the framebuffer in its packed form (R35, R36) -/
  fb : Framebuffer
  /-- the sampled key state (R38) -/
  keys : Keys
  /-- the phase (R39) -/
  phase : Phase
  /-- the register a waiting `LoadKey` writes (R39) -/
  waitreg : Reg
  /-- the instructions of the current frame so far (R40) -/
  fcount : Nat
  /-- the fault record (R41) -/
  fault : Option FaultRecord
  /-- the sequencer's next move after the frame's instructions (R194; the model's own field, log entry 6) -/
  frameMove : FrameMove
  /-- how many free values have been drawn (the model's own field, log entry 7) -/
  draws : Nat
  deriving DecidableEq, Repr

/-- What a step answers. -/
abbrev Result := Host.Outcome State Fault Refusal

/-- The machine after power-on with the arguments `c`, before the host loads a program (R42, R210). The call stack's entries
and `waitreg` have no value in the spec: 0 (DESIGN CHOICE, log entry 8). -/
def State.resetWith (c : Config) : State where
  cfg := c
  x := Vector.replicate 16 0
  pc := c.origin
  i := 0
  sp := 0
  stack := List.replicate c.stackDepth 0
  dt := 0
  st := 0
  mem := []
  fb := Vector.replicate 256 0
  keys := Vector.replicate 16 false
  phase := .run
  waitreg := 0
  fcount := 0
  fault := none
  frameMove := .tick
  draws := 0

/-- The machine right after reset, every argument at its default (R5, R210). -/
def State.reset : State := State.resetWith Config.default

end Sys2Proof.Machine
end

