-- ==== Sys2Proof/Machine/Operands.lean ====
section
/-! DEFINITION. How an operand of an instruction becomes a value (spec/30_encoding.md R73, spec/43_index_memory.md R140, R143, R144, spec/45_timers_keys_random.md R167). -/

namespace Sys2Proof.Machine

/-- `x[r]` (R7). -/
def reg (s : State) (r : Reg) : Byte := s.x[r]

/-- `zext_16(NNN)` (R73). -/
def zextAddr (nnn : Addr12) : Word := nnn.setWidth 16

/-- `zext_16` of a byte (R6). -/
def zextByte (b : Byte) : Word := b.setWidth 16

/-- The memory address that data accesses start from: `I` (R140). -/
def indexAddr (s : State) : Nat := s.i.toNat

/-- The number of registers `V0..Vx` inclusive: `X + 1` (R145, R146). -/
def regCount (x : Reg) : Nat := x.val + 1

/-- `[ x[0], x[1], ..., x[X] ]` (R145). -/
def regsUpTo (s : State) (x : Reg) : List Byte := s.x.toList.take (regCount x)

/-- `[ a div 100, (a div 10) mod 10, a mod 10 ]` (R144). -/
def bcdDigits (a : Byte) : List Byte :=
  [BitVec.ofNat 8 (a.toNat / 100), BitVec.ofNat 8 (a.toNat / 10 % 10), BitVec.ofNat 8 (a.toNat % 10)]

/-- `5 * zext_16(a)`, the font offset of the whole byte `a` (R143). -/
def fontOffset (a : Byte) : Word := BitVec.ofNat 16 (5 * a.toNat)

/-- The key a register value names; none above 0xF (R167). -/
def keyIndex (a : Byte) : Option (Fin 16) :=
  if h : a.toNat < 16 then some ⟨a.toNat, h⟩ else none

end Sys2Proof.Machine
end

