-- ==== Sys2Proof/Machine/Ops.lean ====
section
/-! DEFINITION. The named operations over registers, memory and the call stack that the meanings share, and the taking of a fault. -/

namespace Sys2Proof.Machine

/-! ## Registers -/

/-- `x[r] <- v` (R7). -/
def writeReg (r : Reg) (v : Byte) (s : State) : State := { s with x := s.x.set r v }

/-- `PC <- a` (R7). -/
def setPc (a : Word) (s : State) : State := { s with pc := a }

/-- `PC <- PC + 2`, in the fetch and in a taken skip (R91, R93). -/
def advancePc (s : State) : State := setPc (s.pc + 2) s

/-- A skip: "advance `PC` by an additional 2" when the condition holds (R93). -/
def skipIf (taken : Bool) (s : State) : State := if taken then advancePc s else s

/-- `I <- a` (R7). -/
def setIndex (a : Word) (s : State) : State := { s with i := a }

/-- A flag in VF (R25). -/
def writeFlag (f : Bool) (s : State) : State := writeReg vf (flagByte f) s

/-- A result to `x[r]` and a flag to VF, the surviving write on VF itself by `VF_PRIORITY` (R95). -/
def writeResultAndFlag (r : Reg) (result : Byte) (f : Bool) (s : State) : State :=
  match s.cfg.vfPriority with
  | .flagWins => writeFlag f (writeReg r result s)
  | .resultWins => writeReg r result (writeFlag f s)

/-- `for k in 0 .. n-1: x[k] <- b[k]`, for the `n` bytes given; the registers above keep their values (R146). -/
def writeRegs (bytes : List Byte) (s : State) : State :=
  { s with x := Vector.ofFn fun r : Fin 16 => (bytes[r.val]?).getD (reg s r) }

/-! ## Faults -/

/-- Taking a fault: the record is written if it is empty and the phase becomes `HALTED`. "It saves no state, changes no mode,
has no vector and transfers control nowhere: `PC` is not changed by the fault" (R189). There is no return from it but
reset (R190). -/
def takeFault (f : FaultRecord) (s : State) : State :=
  { s with fault := some (s.fault.getD f), phase := .halted }

/-- `raise f`: the instruction ends here, with the fault taken (R9, R189). -/
def raise (f : FaultRecord) (s : State) : Result := .next (takeFault f s)

/-- An operation of an instruction that may raise, and the rest of the instruction. -/
def attempt {α : Type} (r : Except FaultRecord α) (s : State) (k : α → Result) : Result :=
  match r with
  | .ok a => k a
  | .error f => raise f s

/-- The address of the instruction being executed: `PC - 2`, since fetch has advanced `PC` (R92). -/
def instrAddr (s : State) : Word := s.pc - 2

/-! ## Memory -/

/-- `mem[a]` (R8). -/
def readByte (s : State) (a : Nat) : Byte := Memory.read s.cfg s.mem a

/-- `MemRead(addr, n)` (R50). -/
def memRead (s : State) (addr n : Nat) : Except FaultRecord (List Byte) :=
  if addr + n > s.cfg.memBytes then .error (.outOfBounds addr n)
  else .ok (Memory.readRange s.cfg s.mem addr n)

/-- `MemWrite(addr, n, v)` with `n` the length of `v`: one check on the whole range before any byte is written (R51). -/
def memWrite (s : State) (addr : Nat) (bytes : List Byte) : Except FaultRecord State :=
  if addr + bytes.length > s.cfg.memBytes then .error (.outOfBounds addr bytes.length)
  else .ok { s with mem := Memory.writeRange s.cfg s.mem addr bytes }

/-! ## The call stack -/

/-- Push `PC`, unless `STACK_DEPTH` return addresses are held already (R123). Above `STACK_DEPTH`, which no run reaches,
the stack counts as full too (log entry 9). -/
def pushReturn (s : State) : Except FaultRecord State :=
  if s.cfg.stackDepth ≤ s.sp.toNat then .error (.stackOverflow (instrAddr s))
  else .ok { s with stack := s.stack.set s.sp.toNat s.pc, sp := s.sp + 1 }

/-- Pop a return address, unless none is held (R122). An `SP` that points outside the stack, which no run reaches, is a
stack index out of range (R185, log entry 9). -/
def popReturn (s : State) : Except FaultRecord (Word × State) :=
  if s.sp = 0 then .error (.stackUnderflow (instrAddr s))
  else
    match s.stack[(s.sp - 1).toNat]? with
    | some a => .ok (a, { s with sp := s.sp - 1 })
    | none => .error (.indexOutOfRange (s.sp - 1) (instrAddr s))

end Sys2Proof.Machine
end

