-- ==== Sys2Proof/Machine/Alu.lean ====
section
/-! DEFINITION. The meanings of the register load, arithmetic, logic and shift instructions (spec/41_alu.md). -/

namespace Sys2Proof.Machine

/-- R102 -/
def execLoadImm (x : Reg) (kk : Byte) (s : State) : Result := .next (writeReg x kk s)

/-- R103: the sum wraps and VF is not written. -/
def execAddImm (x : Reg) (kk : Byte) (s : State) : Result := .next (writeReg x (reg s x + kk) s)

/-- R104 -/
def execLoadReg (x y : Reg) (s : State) : Result := .next (writeReg x (reg s y) s)

/-- R105: VF is not written. -/
def execOr (x y : Reg) (s : State) : Result := .next (writeReg x (reg s x ||| reg s y) s)

/-- R106: VF is not written. -/
def execAnd (x y : Reg) (s : State) : Result := .next (writeReg x (reg s x &&& reg s y) s)

/-- R107: VF is not written. -/
def execXor (x y : Reg) (s : State) : Result := .next (writeReg x (reg s x ^^^ reg s y) s)

/-- R108 -/
def execAddReg (x y : Reg) (s : State) : Result :=
  .next (writeResultAndFlag x (reg s x + reg s y) (carryFlag (reg s x) (reg s y)) s)

/-- R109 -/
def execSubVx (x y : Reg) (s : State) : Result :=
  .next (writeResultAndFlag x (reg s x - reg s y) (greaterFlag (reg s x) (reg s y)) s)

/-- R110: Vx shifts itself; the field `Y` is ignored (R79). -/
def execShiftRight (x : Reg) (s : State) : Result :=
  .next (writeResultAndFlag x (reg s x >>> 1) (shiftRightFlag (reg s x)) s)

/-- R111 -/
def execSubRev (x y : Reg) (s : State) : Result :=
  .next (writeResultAndFlag x (reg s y - reg s x) (greaterFlag (reg s y) (reg s x)) s)

/-- R112: Vx shifts itself; the field `Y` is ignored (R79). -/
def execShiftLeft (x : Reg) (s : State) : Result :=
  .next (writeResultAndFlag x (reg s x <<< 1) (shiftLeftFlag (reg s x)) s)

end Sys2Proof.Machine
end

