-- ==== Sys2Proof/Machine/Control.lean ====
section
/-! DEFINITION. The meanings of the jumps, call, return, compare-and-skip instructions and `Sys` (spec/42_control_flow.md). -/

namespace Sys2Proof.Machine

/-- R120: "`Sys` is a no-op (reserved legacy opcode family)"; its field is ignored. -/
def execSys (s : State) : Result := .next s

/-- R121 -/
def execJmp (nnn : Addr12) (s : State) : Result := .next (setPc (zextAddr nnn) s)

/-- R122 -/
def execRet (s : State) : Result :=
  attempt (popReturn s) s fun popped => .next (setPc popped.1 popped.2)

/-- R123 -/
def execCall (nnn : Addr12) (s : State) : Result :=
  attempt (pushReturn s) s fun pushed => .next (setPc (zextAddr nnn) pushed)

/-- R124: the 16-bit sum is neither wrapped to 12 bits nor masked. -/
def execJmpV0 (nnn : Addr12) (s : State) : Result :=
  .next (setPc (zextAddr nnn + zextByte (reg s 0)) s)

/-- R126 -/
def execSkipEqImm (x : Reg) (kk : Byte) (s : State) : Result := .next (skipIf (reg s x == kk) s)

/-- R127 -/
def execSkipNeImm (x : Reg) (kk : Byte) (s : State) : Result := .next (skipIf (reg s x != kk) s)

/-- R128 -/
def execSkipEqReg (x y : Reg) (s : State) : Result := .next (skipIf (reg s x == reg s y) s)

/-- R129 -/
def execSkipNeReg (x y : Reg) (s : State) : Result := .next (skipIf (reg s x != reg s y) s)

end Sys2Proof.Machine
end

