-- ==== Sys2Proof/Machine/Devices.lean ====
section
/-! DEFINITION. The meanings of the random, keypad and timer instructions (spec/45_timers_keys_random.md). -/

namespace Sys2Proof.Machine

/-- One more free value drawn. -/
def countDraw (s : State) : State := { s with draws := s.draws + 1 }

/-- `Rand` with the byte that the `rand_byte` input supplies (R166, R202). -/
def randWith (rnd : Byte) (x : Reg) (kk : Byte) (s : State) : State := writeReg x (rnd &&& kk) s

/-- R166, with the free byte of this draw (log entry 1). -/
def execRand (x : Reg) (kk : Byte) (s : State) : Result :=
  .next (countDraw (randWith (Config.freeRandByte s.draws) x kk s))

/-- A skip on key `x[X]`, taken when its sampled state is `down`; a value that names no key is a fault (R167, R168). -/
def skipOnKey (down : Bool) (x : Reg) (s : State) : Result :=
  match keyIndex (reg s x) with
  | some k => .next (skipIf (s.keys[k] == down) s)
  | none => raise (.indexOutOfRange (reg s x) (instrAddr s)) s

/-- R167 -/
def execSkipKey (x : Reg) (s : State) : Result := skipOnKey true x s

/-- R168 -/
def execSkipNotKey (x : Reg) (s : State) : Result := skipOnKey false x s

/-- R170 -/
def execLoadDelay (x : Reg) (s : State) : Result := .next (writeReg x s.dt s)

/-- R169, the part in the step: the machine waits. `keyPress` (Machine/Sequencer.lean) completes it. -/
def execLoadKey (x : Reg) (s : State) : Result := .next { s with waitreg := x, phase := .waitKey }

/-- R171 -/
def execSetDelay (x : Reg) (s : State) : Result := .next { s with dt := reg s x }

/-- R172 -/
def execSetSound (x : Reg) (s : State) : Result := .next { s with st := reg s x }

end Sys2Proof.Machine
end

