-- ==== Sys2Proof/Machine/Framebuffer.lean ====
section
/-! DEFINITION. The XOR sprite composer and collision detector over the packed framebuffer (spec/10_state.md R35, R36, spec/44_display.md R150 to R154), by pixels as R152 gives it and by bytes as R154 gives it. -/

namespace Sys2Proof.Machine

/-- The byte that holds pixel `FB[r][c]`: `8*r + (c div 8)` (R36). -/
def pixelByte (r : Fin 32) (c : Fin 64) : Fin 256 := ⟨8 * r.val + c.val / 8, by omega⟩

/-- `FB[r][c]`: bit `7 - (c mod 8)` of its byte (R36). -/
def pixel (fb : Framebuffer) (r : Fin 32) (c : Fin 64) : Bool :=
  (fb[pixelByte r c]).getLsbD (7 - c.val % 8)

/-- `FB[r][c] <- FB[r][c] ^ 1` (R152). -/
def flipPixel (fb : Framebuffer) (r : Fin 32) (c : Fin 64) : Framebuffer :=
  fb.set (pixelByte r c) (fb[pixelByte r c] ^^^ BitVec.twoPow 8 (7 - c.val % 8))

/-- The row a sprite row lands on: `(y0 + r) mod 32` (R150). -/
def wrapRow (y0 r : Nat) : Fin 32 := Fin.ofNat 32 (y0 + r)

/-- The column a sprite column lands on: `(x0 + j) mod 64` (R150). -/
def wrapCol (x0 j : Nat) : Fin 64 := Fin.ofNat 64 (x0 + j)

/-- What the composer holds while it draws: the framebuffer and the collision so far. -/
structure Canvas where
  fb : Framebuffer
  coll : Bool
  deriving DecidableEq, Repr

/-- One sprite bit: nothing when it is 0; when it is 1 the pixel is inverted, and one that was lit is a collision
(R152, R153). -/
def drawPixel (s : Bool) (row : Fin 32) (col : Fin 64) (d : Canvas) : Canvas :=
  if s then { fb := flipPixel d.fb row col, coll := d.coll || pixel d.fb row col } else d

/-- `for j in 0 .. 7`: one sprite row, the most significant bit leftmost (R152). -/
def drawRow (x0 : Nat) (row : Fin 32) (b : Byte) (d : Canvas) : Canvas :=
  (List.range 8).foldl (fun d j => drawPixel (b.getLsbD (7 - j)) row (wrapCol x0 j) d) d

/-- `for r in 0 .. N-1`, from sprite row `r` on (R152). -/
def drawRows (x0 y0 r : Nat) (rows : List Byte) (d : Canvas) : Canvas :=
  match rows with
  | [] => d
  | b :: rest => drawRows x0 y0 (r + 1) rest (drawRow x0 (wrapRow y0 r) b d)

/-- The whole sprite at `(x0, y0)`, from no collision (R152). -/
def drawSprite (x0 y0 : Nat) (rows : List Byte) (fb : Framebuffer) : Canvas :=
  drawRows x0 y0 0 rows { fb := fb, coll := false }

/-! ## The packed-byte form of the same composer (R154) -/

/-- The byte of row `row` and byte column `cb` of eight. -/
def rowByte (row : Fin 32) (cb : Nat) : Fin 256 := ⟨8 * row.val + cb % 8, by omega⟩

/-- XOR one byte into the framebuffer, noting an overlap (R154). -/
def xorByte (k : Fin 256) (b : Byte) (d : Canvas) : Canvas :=
  { fb := d.fb.set k (d.fb[k] ^^^ b), coll := d.coll || (d.fb[k] &&& b) != 0 }

/-- One sprite row split over two adjacent bytes of the row, the second wrapping round the row (R154). -/
def drawRowPacked (x0 : Nat) (row : Fin 32) (b : Byte) (d : Canvas) : Canvas :=
  let sh := x0 % 8
  let cb := x0 / 8 % 8
  xorByte (rowByte row (cb + 1)) (b <<< (8 - sh)) (xorByte (rowByte row cb) (b >>> sh) d)

/-- The rows of a sprite in the packed form (R154). -/
def drawRowsPacked (x0 y0 r : Nat) (rows : List Byte) (d : Canvas) : Canvas :=
  match rows with
  | [] => d
  | b :: rest => drawRowsPacked x0 y0 (r + 1) rest (drawRowPacked x0 (wrapRow y0 r) b d)

/-- The whole sprite in the packed form (R154). -/
def drawSpritePacked (x0 y0 : Nat) (rows : List Byte) (fb : Framebuffer) : Canvas :=
  drawRowsPacked x0 y0 0 rows { fb := fb, coll := false }

end Sys2Proof.Machine
end

