-- ==== Sys2Proof/Machine/Display.lean ====
section
/-! DEFINITION. The meanings of the display instructions (spec/44_display.md). -/

namespace Sys2Proof.Machine

/-- Every pixel 0 (R37, R151). -/
def blankScreen : Framebuffer := Vector.replicate 256 0

/-- R151: VF is not written. -/
def execCls (s : State) : Result := .next { s with fb := blankScreen }

/-- R152: the coordinates are read before VF is written (R94), the sprite before any pixel changes. -/
def execDraw (x y : Reg) (n : Fin 16) (s : State) : Result :=
  attempt (memRead s (indexAddr s) n.val) s fun rows =>
    let drawn := drawSprite (reg s x).toNat (reg s y).toNat rows s.fb
    .next (writeFlag drawn.coll { s with fb := drawn.fb })

end Sys2Proof.Machine
end

