-- ==== Sys2Proof/Machine/Index.lean ====
section
/-! DEFINITION. The meanings of the index register and memory instructions (spec/43_index_memory.md). -/

namespace Sys2Proof.Machine

/-- R141 -/
def execLoadI (nnn : Addr12) (s : State) : Result := .next (setIndex (zextAddr nnn) s)

/-- R142: `I` wraps to 12 bits; Vx is read before VF is written (R94). -/
def execAddI (x : Reg) (s : State) : Result :=
  .next (writeFlag (indexFlag s.i (reg s x)) (setIndex (BitVec.ofNat 16 (indexSum s.i (reg s x) % 0x1000)) s))

/-- R143: the formula is applied to the whole register. -/
def execLoadFont (x : Reg) (s : State) : Result := .next (setIndex (fontOffset (reg s x)) s)

/-- R144 -/
def execLoadBcd (x : Reg) (s : State) : Result :=
  attempt (memWrite s (indexAddr s) (bcdDigits (reg s x))) s .next

/-- R145: `I` is left unchanged. -/
def execStoreRegisters (x : Reg) (s : State) : Result :=
  attempt (memWrite s (indexAddr s) (regsUpTo s x)) s .next

/-- R146: `I` is left unchanged. -/
def execLoadRegisters (x : Reg) (s : State) : Result :=
  attempt (memRead s (indexAddr s) (regCount x)) s fun bytes => .next (writeRegs bytes s)

end Sys2Proof.Machine
end

