-- ==== Sys2Proof/Machine/Sequencer.lean ====
section
/-! DEFINITION. The timer tick, the host's moves on the running machine, and the frame sequencer around the instructions (spec/60_exceptions.md R192 to R206, spec/45_timers_keys_random.md R169). -/

namespace Sys2Proof.Machine

/-- A timer's countdown: by 1 when it is not 0 (R192). -/
def countDown (t : Byte) : Byte := if t = 0 then 0 else t - 1

/-- `Tick` (R192). -/
def tick (s : State) : State := { s with dt := countDown s.dt, st := countDown s.st }

/-- `Poll(newkeys)` (R199, R206). -/
def pollKeys (newKeys : Keys) (s : State) : State := { s with keys := newKeys }

/-- `KeyPress(k)`, the completion of a waiting `LoadKey` (R169, R200). -/
def keyPress (k : Fin 16) (s : State) : State :=
  { writeReg s.waitreg (BitVec.ofNat 8 k.val) s with keys := s.keys.set k true, phase := .run }

/-- The host's move on a machine that waits for a key (R206). -/
def waitMove (e : WaitEvent) (s : State) : State :=
  match e with
  | .poll newKeys => pollKeys newKeys s
  | .press k => keyPress k s

/-- In `WAIT_KEY` the only move is the host's, a free value (R169, R204; log entry 3). -/
def waitStep (s : State) : State := countDraw (waitMove (Config.freeWaitEvent s.draws) s)

/-- The end of a frame, one move a step: exactly one tick, one render and one poll, after which `fcount` is cleared (R194).
`Render` reads the snapshot and changes nothing (R201, R206); the polled keys are a free value (log entry 2). -/
def frameEndStep (s : State) : State :=
  match s.frameMove with
  | .tick => { tick s with frameMove := .render }
  | .render => { s with frameMove := .poll }
  | .poll => { countDraw (pollKeys (Config.freePolledKeys s.draws) s) with fcount := 0, frameMove := .tick }

end Sys2Proof.Machine
end

