-- ==== Sys2Proof/Machine/Cycle.lean ====
section
/-! DEFINITION. The instruction cycle: issue, fetch, the advance of `PC`, decode and execute (spec/40_instruction_cycle.md R90, R91, R96), and the placing of an instruction where the next fetch reads it. -/

namespace Sys2Proof.Machine

/-- The sequencer issues a `Step`: `fcount` "is incremented when a `Step` is issued" (R194; log entry 10). -/
def issue (s : State) : State := { s with fcount := s.fcount + 1 }

/-- The two bytes at `PC`, big-endian (R52, R91). -/
def fetchWord (s : State) : Except FaultRecord Word :=
  (memRead s s.pc.toNat 2).map fun bytes => wordOfBytes (bytes.getD 0 0) (bytes.getD 1 0)

/-- Decode and execute of the word fetched from `addr`, in the state whose `PC` has been advanced (R91). -/
def decodeAndExecute (w : Word) (addr : Word) (s : State) : Result :=
  match decodeWord w with
  | .ok i => exec i s
  | .error _ => raise (.decodeFailure w addr) s

/-- `Step`, one whole instruction (R91). -/
def instructionStep (s : State) : Result :=
  attempt (fetchWord s) (issue s) fun w => decodeAndExecute w s.pc (advancePc (issue s))

/-- The sequencer lets an instruction run next: in `RUN`, inside a frame (R91, R194). -/
def readyToFetch (s : State) : State :=
  { s with
    phase := .run
    fcount := if s.fcount < s.cfg.ipf then s.fcount else 0
    pc := if s.pc.toNat + 2 ≤ s.cfg.memBytes then s.pc else s.cfg.origin }

/-- `w` stored at `PC`, high byte first (R52). -/
def storeAtPc (w : Word) (s : State) : State :=
  { s with mem := Memory.writeRange s.cfg s.mem s.pc.toNat [highByte w, lowByte w] }

/-- The word of an opcode-table row stored where the next fetch reads it, and the sequencer ready to fetch (log entry 11). -/
def placeFetchWord (s : State) (nbits w : Nat) : State :=
  storeAtPc (BitVec.ofNat 16 (w % 2 ^ nbits)) (readyToFetch s)

end Sys2Proof.Machine
end

