-- ==== Sys2Proof/Machine/Step.lean ====
section
/-! DEFINITION. One move of the machine, whichever the frame sequencer and the phase order next (spec/00_scope.md R11, spec/10_state.md R39, spec/60_exceptions.md R194). -/

namespace Sys2Proof.Machine

/-- The machine's next move: in `RUN` an instruction while the frame has instructions left, then its tick, render and poll
(R194); in `WAIT_KEY` a move of the host (R204); in `HALTED` none (R180). A configuration the spec does not admit is
refused (R195). -/
def step (s : State) : Host.Outcome State Fault Refusal :=
  if s.cfg.wf then
    match s.phase with
    | .run => if s.fcount < s.cfg.ipf then instructionStep s else .next (frameEndStep s)
    | .waitKey => .next (waitStep s)
    | .halted => .fault (.halted s.fault)
  else .refused .unsupportedConfiguration

/-- `s` with the instruction whose bits are `w` stored where `step` fetches its next instruction. -/
def State.withFetchWord (s : State) (nbits w : Nat) : State := placeFetchWord s nbits w

end Sys2Proof.Machine
end

