-- ==== Sys2Proof/Machine/HostInterface.lean ====
section
/-! DEFINITION. What the host does to the machine outside a run and reads from it: reset, the program load, and the outputs (spec/60_exceptions.md R186, R198, R201, R203, spec/70_reset_and_hazards.md R210, R215). -/

namespace Sys2Proof.Machine

/-- The reset input asserted with the straps `c`: the same full initialisation as power-on (R210). The draws made so far are
kept, so that a reset does not bring the same free values again (log entry 7). -/
def assertReset (c : Config) (s : State) : State := { State.resetWith c with draws := s.draws }

/-- "after reset, before the first `Step`" (R206): the state is a reset state. -/
abbrev beforeFirstStep (s : State) : Prop := s = assertReset s.cfg s

/-- `Load(bytes)`: once, after reset and before the first `Step`, `MemWrite(ORIGIN, len, image)`; none when it is not the
time for it or when the image does not fit, and then "the run does not start" (R198, R206, R215). -/
def loadProgram (image : List Byte) (s : State) : Option State :=
  if beforeFirstStep s then (memWrite s s.cfg.origin.toNat image).toOption else none

/-- Reset, then load: the machine ready to run `image` (R215). -/
def boot (c : Config) (image : List Byte) : Option State := loadProgram image (State.resetWith c)

/-- `snapshot()`: the 256 packed bytes (R36, R201). -/
def snapshot (s : State) : Framebuffer := s.fb

/-- `tone = (ST != 0)` (R203). -/
def tone (s : State) : Bool := s.st != 0

/-- The fault's code in the table of R180. -/
def FaultRecord.code (f : FaultRecord) : Nat :=
  match f with
  | .outOfBounds _ _ => 1
  | .decodeFailure _ _ => 2
  | .stackUnderflow _ => 3
  | .stackOverflow _ => 4
  | .indexOutOfRange _ _ => 5

/-- The `fault` output: none while `valid` = 0, else the code and the information (R186). -/
def faultOutput (s : State) : Option (Nat × FaultRecord) := s.fault.map fun f => (f.code, f)

end Sys2Proof.Machine
end

