-- ==== Sys2Proof/Safety.lean ====
section
/-! DEFINITION. The terms the claims are made in: the invariant of a run, and what an instruction may change. -/

namespace Sys2Proof.Machine

/-- What the spec says holds of the state between moves (R24, R27, R28, R29, R40, R41). -/
structure State.Inv (s : State) : Prop where
  /-- the configuration is one the spec admits (R5, R195) -/
  cfgWf : s.cfg.wf
  /-- memory is in its canonical form, inside the address space (R32) -/
  memWf : Memory.wf s.cfg s.mem
  /-- "the largest value any rule can give it is 0x10FE" (R24) -/
  pcBound : s.pc.toNat ≤ 0x10FE
  /-- "it always holds a value in 0..0xFFF" (R27) -/
  indexBound : s.i.toNat ≤ 0xFFF
  /-- `SP` is "0..`STACK_DEPTH`" (R28) -/
  spBound : s.sp.toNat ≤ s.cfg.stackDepth
  /-- the stack has `STACK_DEPTH` entries (R29) -/
  stackLength : s.stack.length = s.cfg.stackDepth
  /-- every return address held was a fetched instruction's address plus 2 (R123) -/
  returnBound : ∀ a ∈ s.stack.take s.sp.toNat, a.toNat ≤ s.cfg.memBytes
  /-- `fcount` is "0..`IPF`" (R40) -/
  fcountBound : s.fcount ≤ s.cfg.ipf
  /-- the tick is the first move after the frame's instructions (R194) -/
  frameOrder : s.fcount < s.cfg.ipf → s.frameMove = .tick
  /-- the fault record is written exactly when the machine halts (R41, R189) -/
  faultHalted : s.phase = .halted ↔ s.fault.isSome

/-- `t` is `s` but for the general registers, and there only those of `rs` may differ. -/
def OnlyRegs (rs : List Reg) (s t : State) : Prop :=
  t = { s with x := t.x } ∧ ∀ r, r ∉ rs → reg t r = reg s r

/-- `t` is `s` but for memory, and there only the bytes at `addr .. addr+len-1` may differ. -/
def OnlyBytes (addr len : Nat) (s t : State) : Prop :=
  t = { s with mem := t.mem } ∧ ∀ a, (a < addr ∨ addr + len ≤ a) → readByte t a = readByte s a

/-- `t` is the machine `s` with the fault `f` taken: the record is `f` if it was empty, the phase is `HALTED`, and every
other piece of state is as it was (R189). -/
def Halts (f : FaultRecord) (s t : State) : Prop :=
  t = { s with fault := t.fault, phase := .halted } ∧ (s.fault = none → t.fault = some f) ∧
    (∀ g, s.fault = some g → t.fault = some g)

/-- An instruction that writes a result to `x[X]` and a flag to VF: both land when `X` is not 0xF, and on VF itself the one
that `VF_PRIORITY` lets win; nothing else changes (R95). -/
def WritesResultAndFlag (x : Reg) (result flag : Nat) (s t : State) : Prop :=
  OnlyRegs [x, vf] s t ∧
    (x ≠ vf → (reg t x).toNat = result ∧ (reg t vf).toNat = flag) ∧
    (x = vf → (reg t vf).toNat = if s.cfg.vfPriority = .flagWins then flag else result)

/-- The general registers an instruction may write (R22, R25). -/
def regsWritten (i : Instr) : List Reg :=
  match i with
  | .loadImm x _ | .addImm x _ | .loadReg x _ | .or x _ | .and x _ | .xor x _
  | .rand x _ | .loadDelay x => [x]
  | .addReg x _ | .subVx x _ | .shiftRight x _ | .subRev x _ | .shiftLeft x _ => [x, vf]
  | .addI _ | .draw _ _ _ => [vf]
  | .loadRegisters x => (List.finRange 16).filter (fun r => decide (r ≤ x))
  | .cls | .ret | .sys _ | .jmp _ | .call _ | .skipEqImm _ _ | .skipNeImm _ _ | .skipEqReg _ _
  | .skipNeReg _ _ | .loadI _ | .jmpV0 _ | .skipKey _ | .skipNotKey _ | .loadKey _ | .setDelay _
  | .setSound _ | .loadFont _ | .loadBcd _ | .storeRegisters _ => []

/-- The instructions that may write `PC` after the fetch has advanced it: jumps, call, return and skips (R23). -/
def writesPc (i : Instr) : Bool :=
  match i with
  | .ret | .jmp _ | .call _ | .jmpV0 _ | .skipEqImm _ _ | .skipNeImm _ _ | .skipEqReg _ _
  | .skipNeReg _ _ | .skipKey _ | .skipNotKey _ => true
  | .cls | .sys _ | .loadImm _ _ | .addImm _ _ | .loadReg _ _ | .or _ _ | .and _ _ | .xor _ _
  | .addReg _ _ | .subVx _ _ | .shiftRight _ _ | .subRev _ _ | .shiftLeft _ _ | .loadI _
  | .rand _ _ | .draw _ _ _ | .loadDelay _ | .loadKey _ | .setDelay _ | .setSound _ | .addI _
  | .loadFont _ | .loadBcd _ | .storeRegisters _ | .loadRegisters _ => false

/-- The instructions that may raise a fault in execute (R180 to R185). -/
def mayFault (i : Instr) : Bool :=
  match i with
  | .ret | .call _ | .draw _ _ _ | .skipKey _ | .skipNotKey _ | .loadBcd _ | .storeRegisters _ | .loadRegisters _ => true
  | .cls | .sys _ | .jmp _ | .jmpV0 _ | .skipEqImm _ _ | .skipNeImm _ _ | .skipEqReg _ _ | .skipNeReg _ _
  | .loadImm _ _ | .addImm _ _ | .loadReg _ _ | .or _ _ | .and _ _ | .xor _ _ | .addReg _ _ | .subVx _ _
  | .shiftRight _ _ | .subRev _ _ | .shiftLeft _ _ | .loadI _ | .rand _ _ | .loadDelay _ | .loadKey _
  | .setDelay _ | .setSound _ | .addI _ | .loadFont _ => false

/-- A sprite with the row bytes `rows` has a set bit that lands on pixel `(row, col)` when drawn at `(x0, y0)` (R150, R152). -/
def SpriteCovers (rows : List Byte) (x0 y0 : Nat) (row : Fin 32) (col : Fin 64) : Prop :=
  ∃ r, ∃ b, rows[r]? = some b ∧ ∃ j < 8, b.getLsbD (7 - j) = true ∧
    (y0 + r) % 32 = row.val ∧ (x0 + j) % 64 = col.val

/-- "the program has reached its final state": `phase = RUN`, the word at `PC` is `Jmp PC`, and both timers are 0 (R217). -/
def AtFinalState (s : State) : Prop :=
  s.phase = .run ∧ s.pc.toNat + 2 ≤ s.cfg.memBytes ∧ s.dt = 0 ∧ s.st = 0 ∧
    ∃ nnn : Addr12, zextAddr nnn = s.pc ∧
      decodeWord (wordOfBytes (readByte s s.pc.toNat) (readByte s (s.pc.toNat + 1))) = .ok (.jmp nnn)

/-- `k` steps, stopping at the first fault or refusal. -/
def runSteps (k : Nat) (s : State) : Result :=
  match k with
  | 0 => .next s
  | k + 1 =>
    match step s with
    | .next t => runSteps k t
    | .fault r => .fault r
    | .refused r => .refused r

/-- The moves that `k` steps from `s` make, as a pair: how many are instructions and how many are ticks (R194, R197). -/
def countMoves (k : Nat) (s : State) : Nat × Nat :=
  match k with
  | 0 => (0, 0)
  | k + 1 =>
    match step s with
    | .next t =>
      let later := countMoves k t
      if s.phase = .run ∧ s.fcount < s.cfg.ipf then (later.1 + 1, later.2)
      else if s.phase = .run ∧ s.frameMove = .tick then (later.1, later.2 + 1)
      else later
    | .fault _ | .refused _ => (0, 0)

end Sys2Proof.Machine
end

