-- ==== Sys2Proof/Certificates/Slice0/Obligations.lean ====
section
/-! DEFINITION. The statements for the provers, rule by rule of the spec. Where a statement rests on a choice of the model, its docstring names the log entry. -/

open Sys2Proof Sys2Proof.Machine

/-! ## Encoding (spec/30_encoding.md) -/

/-- R75, R76: no bit of an encoding is dropped. Every well-formed instruction, with every operand at every value, is what its
own word and its own two bytes decode to. -/
def Obligations.DecodeInvertsEncode : Prop :=
  ∀ i : Instr, i.wf = true →
    decodeWord (encode i) = .ok i ∧
    ∀ rest, decodeBytes (encodeBytes i ++ rest) = .ok (i, rest)

/-- R75, R76: each word has one meaning. What a word decodes to is well formed and is encoded by that word. -/
def Obligations.EncodeInvertsDecode : Prop :=
  ∀ (w : Word) (i : Instr), decodeWord w = .ok i → i.wf = true ∧ encode i = w

/-- R75: "A word selects the first row whose `match` equals `word & mask`": the decoder takes the form of that row, and takes
none where no row matches. -/
def Obligations.DecoderFollowsOpcodeMap : Prop :=
  ∀ w : Word,
    (∀ i, decodeWord w = .ok i → tableMnemonic w = some i.mnemonic) ∧
    (∀ e, decodeWord w = .error e → tableMnemonic w = none)

/-- R77: the illegal words, group by group. -/
def Obligations.IllegalWordsAreExactlyTheListed : Prop :=
  ∀ w : Word,
    (∃ e, decodeWord w = .error e) ↔
      (w.toNat / 4096 = 5 ∧ w.toNat % 16 ≠ 0) ∨
      (w.toNat / 4096 = 8 ∧ w.toNat % 16 ∈ [8, 9, 0xA, 0xB, 0xC, 0xD, 0xF]) ∨
      (w.toNat / 4096 = 9 ∧ w.toNat % 16 ≠ 0) ∨
      (w.toNat / 4096 = 0xE ∧ w.toNat % 256 ∉ [0x9E, 0xA1]) ∨
      (w.toNat / 4096 = 0xF ∧ w.toNat % 256 ∉ [0x07, 0x0A, 0x15, 0x18, 0x1E, 0x29, 0x33, 0x55, 0x65])

/-- R78: `Sys` takes every word `0NNN` but two, and does nothing. -/
def Obligations.ReservedFamilyDoesNothing : Prop :=
  ∀ w : Word, w.toNat < 0x1000 → w ≠ 0x00E0 → w ≠ 0x00EE →
    ∃ nnn : Addr12, nnn.toNat = w.toNat ∧ decodeWord w = .ok (.sys nnn) ∧
      ∀ s, exec (.sys nnn) s = .next s

/-- Words of every group of the primary selector, written out from the patterns of R75, and what they stand for. -/
def Obligations.SampleWordsDecode : Prop :=
  decodeWord 0x00E0 = .ok .cls ∧ decodeWord 0x00EE = .ok .ret ∧ decodeWord 0x0123 = .ok (.sys 0x123) ∧
  decodeWord 0x1ABC = .ok (.jmp 0xABC) ∧ decodeWord 0x2200 = .ok (.call 0x200) ∧
  decodeWord 0x3A55 = .ok (.skipEqImm 0xA 0x55) ∧ decodeWord 0x4F00 = .ok (.skipNeImm 0xF 0x00) ∧
  decodeWord 0x5AB0 = .ok (.skipEqReg 0xA 0xB) ∧ decodeWord 0x5AB1 = .error (.illegal5 1) ∧
  decodeWord 0x6207 = .ok (.loadImm 2 7) ∧ decodeWord 0x7EFF = .ok (.addImm 0xE 0xFF) ∧
  decodeWord 0x8124 = .ok (.addReg 1 2) ∧ decodeWord 0x812E = .ok (.shiftLeft 1 2) ∧
  decodeWord 0x9AB0 = .ok (.skipNeReg 0xA 0xB) ∧ decodeWord 0xA123 = .ok (.loadI 0x123) ∧
  decodeWord 0xB300 = .ok (.jmpV0 0x300) ∧ decodeWord 0xC30F = .ok (.rand 3 0x0F) ∧
  decodeWord 0xD125 = .ok (.draw 1 2 5) ∧ decodeWord 0xE19E = .ok (.skipKey 1) ∧
  decodeWord 0xF107 = .ok (.loadDelay 1) ∧ decodeWord 0xFF65 = .ok (.loadRegisters 0xF)

/-! ## The instruction cycle (spec/40_instruction_cycle.md) -/

/-- R91: where the two bytes at `PC` decode to an instruction, the machine's step in `RUN` is that instruction's meaning, in the
state whose `PC` is past the word and whose `fcount` counts it (R194; that the count is made at the issue is log entry 10). -/
def Obligations.StepRunsTheDecodedInstruction : Prop :=
  ∀ (s : State) (i : Instr), s.cfg.wf → s.phase = .run → s.fcount < s.cfg.ipf →
    s.pc.toNat + 2 ≤ s.cfg.memBytes →
    decodeBytes [readByte s s.pc.toNat, readByte s (s.pc.toNat + 1)] = .ok (i, []) →
    step s = exec i { s with pc := s.pc + 2, fcount := s.fcount + 1 }

/-- R181 (fetch), R96: a fetch outside memory is the fatal `OutOfBounds(PC, 2)`, and nothing else changes but the sequencer's
count of the step it issued (log entry 10). -/
def Obligations.FetchOutsideMemoryHalts : Prop :=
  ∀ s : State, s.cfg.wf → s.phase = .run → s.fcount < s.cfg.ipf →
    s.cfg.memBytes < s.pc.toNat + 2 →
    ∃ t, step s = .next t ∧ Halts (.outOfBounds s.pc.toNat 2) { s with fcount := s.fcount + 1 } t

/-- R182, R96: a word that is no instruction is the fatal `DecodeFailure(word, addr)`, with `PC` advanced and nothing else
changed but the sequencer's count of the step (log entry 10). -/
def Obligations.IllegalWordHalts : Prop :=
  ∀ (s : State) (e : DecodeError), s.cfg.wf → s.phase = .run → s.fcount < s.cfg.ipf →
    s.pc.toNat + 2 ≤ s.cfg.memBytes →
    decodeWord (wordOfBytes (readByte s s.pc.toNat) (readByte s (s.pc.toNat + 1))) = .error e →
    ∃ t, step s = .next t ∧
      Halts (.decodeFailure (wordOfBytes (readByte s s.pc.toNat) (readByte s (s.pc.toNat + 1))) s.pc)
        { s with pc := s.pc + 2, fcount := s.fcount + 1 } t

/-- A word placed by `withFetchWord` is the very next instruction to run, from any state of an admitted configuration. -/
def Obligations.PlacedWordRunsNext : Prop :=
  ∀ (s : State) (w : Word) (i : Instr), s.cfg.wf → Memory.wf s.cfg s.mem → decodeWord w = .ok i →
    ∃ u : State, step (s.withFetchWord 16 w.toNat) = exec i u ∧
      u = { s with mem := u.mem, pc := u.pc, fcount := u.fcount, phase := .run } ∧
      u.pc = (if s.pc.toNat + 2 ≤ s.cfg.memBytes then s.pc else s.cfg.origin) + 2 ∧
      ∀ a, a + 2 ≠ u.pc.toNat → a + 1 ≠ u.pc.toNat → readByte u a = readByte s a

/-- R91, R194, R40: each instruction step counts once in its frame, whatever the instruction. -/
def Obligations.InstructionCountsOnceInItsFrame : Prop :=
  ∀ s t : State, step s = .next t → s.phase = .run → s.fcount < s.cfg.ipf →
    t.fcount = s.fcount + 1 ∧ t.frameMove = s.frameMove

/-- Every instruction, on every state, answers a next state: none is refused and none stops the model. That an
instruction that faults answers a next state too is the model's choice (log entry 12), and so is the fault of `Ret` with `SP`
outside the stack (log entry 9). -/
def Obligations.EveryInstructionAnswersANextState : Prop :=
  ∀ (i : Instr) (s : State), ∃ t, exec i s = .next t

/-- R96, R189: an instruction that faults in execute has changed nothing but the fault record and the phase. -/
def Obligations.FaultingInstructionChangesNothing : Prop :=
  ∀ (i : Instr) (s t : State), exec i s = .next t → s.phase ≠ .halted → t.phase = .halted →
    ∃ f, Halts f s t

/-- R180: which instruction can raise which fault. -/
def Obligations.FaultsComeFromTheirInstructions : Prop :=
  ∀ (i : Instr) (s t : State) (f : FaultRecord), s.Inv → exec i s = .next t → s.fault = none → t.fault = some f →
    match f with
    | .outOfBounds addr len => addr = s.i.toNat ∧
        ((∃ x y n, i = .draw x y n ∧ len = n.val) ∨ (∃ x, i = .loadBcd x ∧ len = 3) ∨
          (∃ x, i = .storeRegisters x ∧ len = x.val + 1) ∨ (∃ x, i = .loadRegisters x ∧ len = x.val + 1))
    | .decodeFailure _ _ => False
    | .stackUnderflow addr => i = .ret ∧ addr = s.pc - 2
    | .stackOverflow addr => (∃ nnn, i = .call nnn) ∧ addr = s.pc - 2
    | .indexOutOfRange value addr => (∃ x, (i = .skipKey x ∨ i = .skipNotKey x) ∧ value = reg s x) ∧ addr = s.pc - 2

/-! ## Reset, configuration and the invariant -/

/-- R210, R211: power-on with the arguments `c`, and the reset input on any state, put every piece of state at its reset value.
That the reset input is the full initialisation and that `ETI660` selects `ORIGIN` are the spec's choice D2, the dark screen its
choice D13, the keys up its choice D19 (log entry 15); `assertReset` keeps the model's own `draws` (log entry 7). The entries of the call stack and `waitreg` are not stated: the spec gives them none (log entry 8). -/
def Obligations.ResetGivesEveryValue : Prop :=
  ∀ (c : Config) (s₀ s : State), s = State.resetWith c ∨ s = assertReset c s₀ →
    s.cfg = c ∧ (∀ r, reg s r = 0) ∧ s.i = 0 ∧ s.sp = 0 ∧ s.dt = 0 ∧ s.st = 0 ∧
    s.pc = (if c.eti660 then 0x600 else 0x200) ∧
    (∀ (d : Fin 16) (k : Fin 5), readByte s (5 * d.val + k.val) = c.font[d][k]) ∧
    (∀ a, 80 ≤ a → readByte s a = 0) ∧
    (∀ r c, pixel s.fb r c = false) ∧ (∀ k : Fin 16, s.keys[k] = false) ∧
    s.phase = .run ∧ s.fcount = 0 ∧ s.fault = none

/-- Reset meets the invariant, with every admitted configuration. -/
def Obligations.ResetMeetsTheInvariant : Prop :=
  (∀ c : Config, c.wf → (State.resetWith c).Inv) ∧ State.reset.Inv

/-- R24, R27, R28, R29, R40, R41: every step from a state that meets the invariant gives one that meets it. -/
def Obligations.StepKeepsTheInvariant : Prop :=
  ∀ s t : State, s.Inv → step s = .next t → t.Inv

/-- R43: the configuration inputs "are straps fixed for a run, not registers a program can reach". -/
def Obligations.StepKeepsTheConfiguration : Prop :=
  ∀ s t : State, step s = .next t → t.cfg = s.cfg

/-- R195: `IPF` is `floor(CPS / 60) + GUARD`, and a configuration in which no instruction would ever run is refused
(the spec's choice D18). -/
def Obligations.InstructionsPerFrameMustBePositive : Prop :=
  (∀ c : Config, c.ipf = c.cps / 60 + (if c.guardCycle then 1 else 0)) ∧
  Config.default.ipf = 16 ∧
  (∀ s : State, s.cfg.ipf = 0 → step s = .refused .unsupportedConfiguration)

/-- R198, R215: the program load copies the image to `ORIGIN` and changes nothing else; an image that does not fit, or a load
at any other time, is none. That the time of the load is a reset state is read from the rule by the model (log entry 11). -/
def Obligations.ProgramLoadCopiesTheImage : Prop :=
  (∀ (c : Config) (image : List Byte), c.origin.toNat + image.length ≤ c.memBytes →
    ∃ t, boot c image = some t ∧ OnlyBytes c.origin.toNat image.length (State.resetWith c) t ∧
      ∀ k b, image[k]? = some b → readByte t (c.origin.toNat + k) = b) ∧
  (∀ (c : Config) (image : List Byte), c.memBytes < c.origin.toNat + image.length → boot c image = none) ∧
  (∀ (s : State) (image : List Byte), s ≠ assertReset s.cfg s → loadProgram image s = none)

/-! ## Faults, waiting and the frame sequencer (spec/60_exceptions.md) -/

/-- R41: the fault record is "Written once, by the first fault; never cleared except by reset": a step keeps a record that is
written, in every state; where the invariant holds, a written record means that there is no next state at all; the reset input
clears it. -/
def Obligations.FaultRecordIsKeptUntilReset : Prop :=
  (∀ (s t : State) (f : FaultRecord), s.fault = some f → step s = .next t → t.fault = some f) ∧
  (∀ (s : State) (f : FaultRecord), s.Inv → s.fault = some f → step s = .fault (.halted (some f))) ∧
  (∀ (c : Config) (s : State), (assertReset c s).fault = none)

/-- R180, R190: in an admitted configuration a halted machine takes no further move, and a machine that is not halted always
makes one. -/
def Obligations.MachineStopsExactlyWhenHalted : Prop :=
  ∀ s : State, s.cfg.wf →
    (s.phase = .halted → step s = .fault (.halted s.fault)) ∧
    (s.phase ≠ .halted → ∃ t, step s = .next t)

/-- R217: in its final state a program stays for ever: a step changes nothing but the sequencer's own count and place and, at a
poll, the keys. -/
def Obligations.FinalStateIsKept : Prop :=
  ∀ s t : State, AtFinalState s → step s = .next t →
    AtFinalState t ∧ t = { s with fcount := t.fcount, frameMove := t.frameMove, keys := t.keys, draws := t.draws }

/-- R186, with the codes of R180: the `fault` output is invalid while the record is empty, and after the first fault shows its
code and information (the spec's choice D17). -/
def Obligations.FaultOutputShowsTheFirstFault : Prop :=
  (∀ s : State, s.fault = none → faultOutput s = none) ∧
  (∀ (s t : State) (f : FaultRecord), s.fault = none → Halts f s t →
    faultOutput t = some
      (match f with
       | .outOfBounds _ _ => 1
       | .decodeFailure _ _ => 2
       | .stackUnderflow _ => 3
       | .stackOverflow _ => 4
       | .indexOutOfRange _ _ => 5, f))

/-- R192: the tick takes one from each timer that is not 0 and changes no other state but the sequencer's place in the frame
(both the premise on `frameMove` and its change are log entry 6); outside `RUN` no move counts a timer down. -/
def Obligations.TickCountsBothTimersDown : Prop :=
  (∀ s : State, s.cfg.wf → s.phase = .run → s.cfg.ipf ≤ s.fcount → s.frameMove = .tick →
    ∃ t, step s = .next t ∧ t.dt.toNat = s.dt.toNat - 1 ∧ t.st.toNat = s.st.toNat - 1 ∧
      t = { s with dt := t.dt, st := t.st, frameMove := .render }) ∧
  (∀ s t : State, s.phase ≠ .run → step s = .next t → t.dt = s.dt ∧ t.st = s.st)

/-- R194, R201, R199: after the tick, one render that changes nothing and one poll that may rewrite the keys and ends the
frame. -/
def Obligations.FrameEndsWithRenderAndPoll : Prop :=
  ∀ s : State, s.cfg.wf → s.phase = .run → s.cfg.ipf ≤ s.fcount →
    (s.frameMove = .render → step s = .next { s with frameMove := .poll }) ∧
    (s.frameMove = .poll → ∃ newKeys,
      step s = .next { s with keys := newKeys, fcount := 0, frameMove := .tick, draws := s.draws + 1 })

/-- R197: over any run that ends where an instruction is next, the number of ticks is `floor((p + n) / IPF)`, with `p` the
instructions of the frame before it and `n` those of the run; waiting for keys adds none. -/
def Obligations.TicksFollowTheInstructionCount : Prop :=
  ∀ (k : Nat) (s t : State), s.Inv → s.fcount < s.cfg.ipf → runSteps k s = .next t →
    t.fcount < t.cfg.ipf →
    (countMoves k s).2 = (s.fcount + (countMoves k s).1) / s.cfg.ipf

/-- R204: in `WAIT_KEY` "Only `KeyPress` wakes it": the keys may be polled, which leaves it waiting, or a press writes the
waiting register and that key; all other state, timers included, survives. -/
def Obligations.WaitingMachineKeepsItsState : Prop :=
  ∀ s : State, s.cfg.wf → s.phase = .waitKey → ∃ t, step s = .next t ∧
    ((∃ newKeys, t = { s with keys := newKeys, draws := s.draws + 1 }) ∨
     (∃ k : Fin 16, t = { s with x := t.x, keys := t.keys, phase := .run, draws := s.draws + 1 } ∧
       (reg t s.waitreg).toNat = k.val ∧ (∀ r, r ≠ s.waitreg → reg t r = reg s r) ∧
       t.keys[k] = true ∧ ∀ j : Fin 16, j ≠ k → t.keys[j] = s.keys[j]))

/-! ## Memory (spec/20_memory.md) -/

/-- R50, R51: both primitives fail exactly when `addr + n > MEM_SIZE`; a read gives the `n` bytes, lowest address first; a write
puts its bytes there and changes no other byte. -/
def Obligations.MemReadAndMemWriteFollowTheirRules : Prop :=
  (∀ (s : State) (addr n : Nat),
    (s.cfg.memBytes < addr + n → memRead s addr n = .error (.outOfBounds addr n)) ∧
    (addr + n ≤ s.cfg.memBytes → ∃ bytes, memRead s addr n = .ok bytes ∧ bytes.length = n ∧
      ∀ k b, bytes[k]? = some b → b = readByte s (addr + k))) ∧
  (∀ (s : State) (addr : Nat) (bytes : List Byte), Memory.wf s.cfg s.mem →
    (s.cfg.memBytes < addr + bytes.length →
      memWrite s addr bytes = .error (.outOfBounds addr bytes.length)) ∧
    (addr + bytes.length ≤ s.cfg.memBytes → ∃ t, memWrite s addr bytes = .ok t ∧
      OnlyBytes addr bytes.length s t ∧ ∀ k b, bytes[k]? = some b → readByte t (addr + k) = b))

/-- R63: a store "is seen by every later fetch from that address, including the fetch of the very next instruction": wherever
the stored range lies, each of the two bytes fetched next is the byte stored there, or the old one where the store does not
reach it. -/
def Obligations.FetchSeesTheStoreBeforeIt : Prop :=
  (∀ (s : State) (x : Reg), Memory.wf s.cfg s.mem → indexAddr s + regCount x ≤ s.cfg.memBytes →
    s.pc.toNat + 2 ≤ s.cfg.memBytes →
    ∃ t high low, exec (.storeRegisters x) s = .next t ∧ fetchWord t = .ok (wordOfBytes high low) ∧
      (∀ r : Reg, r ≤ x → indexAddr s + r.val = s.pc.toNat → high = reg s r) ∧
      (∀ r : Reg, r ≤ x → indexAddr s + r.val = s.pc.toNat + 1 → low = reg s r) ∧
      (s.pc.toNat < indexAddr s ∨ indexAddr s + regCount x ≤ s.pc.toNat → high = readByte s s.pc.toNat) ∧
      (s.pc.toNat + 1 < indexAddr s ∨ indexAddr s + regCount x ≤ s.pc.toNat + 1 → low = readByte s (s.pc.toNat + 1))) ∧
  (∀ (s : State) (x : Reg), Memory.wf s.cfg s.mem → indexAddr s + 3 ≤ s.cfg.memBytes →
    s.pc.toNat + 2 ≤ s.cfg.memBytes →
    ∃ t high low, exec (.loadBcd x) s = .next t ∧ fetchWord t = .ok (wordOfBytes high low) ∧
      (∀ k < 3, indexAddr s + k = s.pc.toNat → high.toNat = (reg s x).toNat / 10 ^ (2 - k) % 10) ∧
      (∀ k < 3, indexAddr s + k = s.pc.toNat + 1 → low.toNat = (reg s x).toNat / 10 ^ (2 - k) % 10) ∧
      (s.pc.toNat < indexAddr s ∨ indexAddr s + 3 ≤ s.pc.toNat → high = readByte s s.pc.toNat) ∧
      (s.pc.toNat + 1 < indexAddr s ∨ indexAddr s + 3 ≤ s.pc.toNat + 1 → low = readByte s (s.pc.toNat + 1)))

/-! ## What no other instruction changes -/

/-- R34, R35: of the instructions, only `LoadBcd` and `StoreRegisters` change a byte of memory, and only `Cls` and `Draw` a
pixel. -/
def Obligations.OnlyStoresChangeMemoryAndOnlyDrawingChangesPixels : Prop :=
  ∀ (i : Instr) (s t : State), exec i s = .next t →
    ((∀ x, i ≠ .loadBcd x) → (∀ x, i ≠ .storeRegisters x) → t.mem = s.mem ∧ ∀ a, readByte t a = readByte s a) ∧
    (i ≠ .cls → (∀ x y n, i ≠ .draw x y n) → t.fb = s.fb)

/-- R22, R25: an instruction changes no general register but those it is said to write. -/
def Obligations.OnlyNamedRegistersAreWritten : Prop :=
  ∀ (i : Instr) (s t : State) (r : Reg), exec i s = .next t → r ∉ regsWritten i → reg t r = reg s r

/-- R23, R92: an instruction that is no jump, call, return or skip leaves `PC` at the following instruction. -/
def Obligations.OnlyControlTransfersWritePc : Prop :=
  ∀ (i : Instr) (s t : State), exec i s = .next t → writesPc i = false → t.pc = s.pc

/-- R23, R26, R28 to R31, R38 to R41, R43: each special register and every piece of state a program sees only indirectly, with
the instructions that may change it; the fault record moreover only from empty. The last clause also covers the model's own
fields (log entries 4, 6 and 7). -/
def Obligations.SpecialRegistersHaveTheirWriters : Prop :=
  ∀ (i : Instr) (s t : State), exec i s = .next t →
    (writesPc i = false → t.pc = s.pc) ∧
    ((∀ a, i ≠ .loadI a) → (∀ x, i ≠ .addI x) → (∀ x, i ≠ .loadFont x) → t.i = s.i) ∧
    (i ≠ .ret → (∀ a, i ≠ .call a) → t.sp = s.sp) ∧
    ((∀ a, i ≠ .call a) → t.stack = s.stack) ∧
    ((∀ x, i ≠ .setDelay x) → t.dt = s.dt) ∧
    ((∀ x, i ≠ .setSound x) → t.st = s.st) ∧
    ((∀ x, i ≠ .loadKey x) → t.waitreg = s.waitreg) ∧
    ((∀ x, i ≠ .loadKey x) → mayFault i = false → t.phase = s.phase) ∧
    ((∀ x, i ≠ .loadKey x) → t.phase = s.phase ∨ t.phase = .halted) ∧
    (mayFault i = false → t.fault = s.fault) ∧
    (t.fault ≠ s.fault → s.fault = none ∧ t.phase = .halted) ∧
    ((∀ x kk, i ≠ .rand x kk) → t.draws = s.draws) ∧
    t.keys = s.keys ∧ t.fcount = s.fcount ∧ t.cfg = s.cfg ∧ t.frameMove = s.frameMove

/-! ## Loads, arithmetic, logic, shifts (spec/41_alu.md) -/

/-- R102: the immediate load. -/
def Obligations.LoadImmediateWritesItsRegister : Prop :=
  ∀ (x : Reg) (kk : Byte) (s : State), ∃ t, exec (.loadImm x kk) s = .next t ∧ reg t x = kk ∧ OnlyRegs [x] s t

/-- R104, R103: the register copy, and the immediate add, which wraps and sets no flag (R104's direction is the spec's general
knowledge G7; R103's lack of a flag is its choice D7). -/
def Obligations.RegisterCopyAndImmediateAddSetNoFlag : Prop :=
  ∀ (x y : Reg) (kk : Byte) (s : State),
    (∃ t, exec (.loadReg x y) s = .next t ∧ reg t x = reg s y ∧ OnlyRegs [x] s t) ∧
    (∃ t, exec (.addImm x kk) s = .next t ∧
      (reg t x).toNat = ((reg s x).toNat + kk.toNat) % 256 ∧ OnlyRegs [x] s t)

/-- R105, R106, R107: the logic operations, bit by bit; VF is not written unless it is Vx (the spec's choice D8). -/
def Obligations.LogicOperatesBitByBit : Prop :=
  ∀ (x y : Reg) (s : State),
    (∃ t, exec (.or x y) s = .next t ∧ OnlyRegs [x] s t ∧
      ∀ k, (reg t x).getLsbD k = ((reg s x).getLsbD k || (reg s y).getLsbD k)) ∧
    (∃ t, exec (.and x y) s = .next t ∧ OnlyRegs [x] s t ∧
      ∀ k, (reg t x).getLsbD k = ((reg s x).getLsbD k && (reg s y).getLsbD k)) ∧
    (∃ t, exec (.xor x y) s = .next t ∧ OnlyRegs [x] s t ∧
      ∀ k, (reg t x).getLsbD k = ((reg s x).getLsbD k != (reg s y).getLsbD k))

/-- R108, with R95 for `X` = 0xF and R94 for every overlap of the operands with VF. -/
def Obligations.AddRegisterGivesSumAndCarry : Prop :=
  ∀ (x y : Reg) (s : State), ∃ t, exec (.addReg x y) s = .next t ∧
    WritesResultAndFlag x (((reg s x).toNat + (reg s y).toNat) % 256)
      (if (reg s x).toNat + (reg s y).toNat > 255 then 1 else 0) s t

/-- R109, R111, with R95 and R94: the flag is the strict comparison, so equal operands give 0. -/
def Obligations.SubtractionsGiveDifferenceAndStrictFlag : Prop :=
  ∀ (x y : Reg) (s : State),
    (∃ t, exec (.subVx x y) s = .next t ∧
      WritesResultAndFlag x (((reg s x).toNat + 256 - (reg s y).toNat) % 256)
        (if (reg s x).toNat > (reg s y).toNat then 1 else 0) s t) ∧
    (∃ t, exec (.subRev x y) s = .next t ∧
      WritesResultAndFlag x (((reg s y).toNat + 256 - (reg s x).toNat) % 256)
        (if (reg s y).toNat > (reg s x).toNat then 1 else 0) s t)

/-- R110, R112, with R95 and R79: the shifts move Vx alone by one bit, whatever the field `Y`, and VF gets the bit shifted
out. -/
def Obligations.ShiftsGiveTheBitShiftedOut : Prop :=
  ∀ (x y : Reg) (s : State),
    (∃ t, exec (.shiftRight x y) s = .next t ∧
      WritesResultAndFlag x ((reg s x).toNat / 2) ((reg s x).toNat % 2) s t) ∧
    (∃ t, exec (.shiftLeft x y) s = .next t ∧
      WritesResultAndFlag x (2 * (reg s x).toNat % 256) ((reg s x).toNat / 128) s t)

/-! ## Control transfer (spec/42_control_flow.md) -/

/-- R120, R121: `Sys` does nothing; `Jmp` writes `PC` and nothing else. -/
def Obligations.SysDoesNothingAndJmpWritesOnlyPc : Prop :=
  ∀ (nnn : Addr12) (s : State),
    exec (.sys nnn) s = .next s ∧
    (∃ t, exec (.jmp nnn) s = .next t ∧ t = { s with pc := t.pc } ∧ t.pc.toNat = nnn.toNat)

/-- R123: `Call` pushes the address after it and jumps; on a full stack it is the fatal `StackOverflow` (the dedicated stack
is the spec's choice D3). -/
def Obligations.CallPushesTheReturnAddress : Prop :=
  ∀ (nnn : Addr12) (s : State), s.cfg.wf → s.stack.length = s.cfg.stackDepth →
    (s.sp.toNat < s.cfg.stackDepth → ∃ t, exec (.call nnn) s = .next t ∧
      t = { s with pc := t.pc, sp := t.sp, stack := t.stack } ∧ t.pc.toNat = nnn.toNat ∧
      t.sp.toNat = s.sp.toNat + 1 ∧ t.stack[s.sp.toNat]? = some s.pc ∧
      ∀ k, k ≠ s.sp.toNat → t.stack[k]? = s.stack[k]?) ∧
    (s.sp.toNat = s.cfg.stackDepth → ∃ t, exec (.call nnn) s = .next t ∧ Halts (.stackOverflow (s.pc - 2)) s t)

/-- R122: `Ret` pops the return address; on an empty stack it is the fatal `StackUnderflow` (D3). -/
def Obligations.RetPopsTheReturnAddress : Prop :=
  ∀ s : State, s.sp.toNat ≤ s.stack.length →
    (s.sp ≠ 0 → ∃ t, exec .ret s = .next t ∧ t = { s with pc := t.pc, sp := t.sp } ∧
      t.sp.toNat + 1 = s.sp.toNat ∧ s.stack[t.sp.toNat]? = some t.pc) ∧
    (s.sp = 0 → ∃ t, exec .ret s = .next t ∧ Halts (.stackUnderflow (s.pc - 2)) s t)

/-- R122, R123: a `Ret` that finds the stack as a `Call` left it goes on after that `Call`, with the stack as deep as before. -/
def Obligations.RetComesBackAfterItsCall : Prop :=
  ∀ (nnn : Addr12) (s t u : State), s.cfg.wf → s.stack.length = s.cfg.stackDepth →
    s.sp.toNat < s.cfg.stackDepth → exec (.call nnn) s = .next t → u.sp = t.sp → u.stack = t.stack →
    ∃ v, exec .ret u = .next v ∧ v.pc = s.pc ∧ v.sp = s.sp

/-- R126, R127, R128, R129, R124: the compare-and-skip instructions, with the condition taken and not taken, and `JmpV0` with the
whole 16-bit sum (the conditions are the spec's general knowledge G3 and G10; that the sum does not wrap is its choice D9). -/
def Obligations.SkipsAndOffsetJumpWriteOnlyPc : Prop :=
  ∀ (x y : Reg) (kk : Byte) (nnn : Addr12) (s : State),
    exec (.skipEqImm x kk) s = .next { s with pc := if reg s x = kk then s.pc + 2 else s.pc } ∧
    exec (.skipNeImm x kk) s = .next { s with pc := if reg s x = kk then s.pc else s.pc + 2 } ∧
    exec (.skipEqReg x y) s = .next { s with pc := if reg s x = reg s y then s.pc + 2 else s.pc } ∧
    exec (.skipNeReg x y) s = .next { s with pc := if reg s x = reg s y then s.pc else s.pc + 2 } ∧
    (∃ t, exec (.jmpV0 nnn) s = .next t ∧ t = { s with pc := t.pc } ∧ t.pc.toNat = nnn.toNat + (reg s 0).toNat)

/-! ## Index register and memory instructions (spec/43_index_memory.md) -/

/-- R141: the load of `I`. -/
def Obligations.LoadIWritesOnlyTheIndex : Prop :=
  ∀ (nnn : Addr12) (s : State), ∃ t, exec (.loadI nnn) s = .next t ∧ t = { s with i := t.i } ∧ t.i.toNat = nnn.toNat

/-- R143, R57: the font offset is five times the whole register (above 15 that is the spec's choice D10), and for a digit it is
where reset memory holds the digit's glyph. -/
def Obligations.LoadFontPointsAtTheGlyph : Prop :=
  ∀ (x : Reg) (s : State), ∃ t, exec (.loadFont x) s = .next t ∧ t = { s with i := t.i } ∧
    t.i.toNat = 5 * (reg s x).toNat ∧
    ∀ (d : Fin 16) (k : Fin 5), (reg s x).toNat = d.val → s.mem = (State.resetWith s.cfg).mem →
      readByte t (t.i.toNat + k.val) = s.cfg.font[d][k]

/-- R142: `I` wraps to 12 bits and VF tells whether it did; with `X` = 0xF the old VF is the addend. -/
def Obligations.AddIndexWrapsAndSetsTheFlag : Prop :=
  ∀ (x : Reg) (s : State), ∃ t, exec (.addI x) s = .next t ∧
    t = { s with i := t.i, x := t.x } ∧ (∀ r, r ≠ vf → reg t r = reg s r) ∧
    t.i.toNat = (s.i.toNat + (reg s x).toNat) % 0x1000 ∧
    (reg t vf).toNat = if s.i.toNat + (reg s x).toNat > 0xFFF then 1 else 0

/-- R144: the three decimal digits, hundreds first, at `I`; past the end of memory it is fatal and writes nothing. -/
def Obligations.LoadBcdStoresThreeDigits : Prop :=
  ∀ (x : Reg) (s : State), Memory.wf s.cfg s.mem →
    (indexAddr s + 3 ≤ s.cfg.memBytes → ∃ t, exec (.loadBcd x) s = .next t ∧
      OnlyBytes (indexAddr s) 3 s t ∧
      (readByte t (indexAddr s)).toNat = (reg s x).toNat / 100 ∧
      (readByte t (indexAddr s + 1)).toNat = (reg s x).toNat / 10 % 10 ∧
      (readByte t (indexAddr s + 2)).toNat = (reg s x).toNat % 10) ∧
    (s.cfg.memBytes < indexAddr s + 3 → ∃ t, exec (.loadBcd x) s = .next t ∧ Halts (.outOfBounds (indexAddr s) 3) s t)

/-- R145: V0..Vx go to `X + 1` bytes at `I`, and `I` is left unchanged (the spec's choice D12); past the end of memory it is fatal and writes nothing. -/
def Obligations.StoreRegistersCopiesToMemory : Prop :=
  ∀ (x : Reg) (s : State), Memory.wf s.cfg s.mem →
    (indexAddr s + regCount x ≤ s.cfg.memBytes → ∃ t, exec (.storeRegisters x) s = .next t ∧
      OnlyBytes (indexAddr s) (x.val + 1) s t ∧ ∀ r : Reg, r ≤ x → readByte t (indexAddr s + r.val) = reg s r) ∧
    (s.cfg.memBytes < indexAddr s + regCount x → ∃ t, exec (.storeRegisters x) s = .next t ∧
      Halts (.outOfBounds (indexAddr s) (x.val + 1)) s t)

/-- R146: V0..Vx get the `X + 1` bytes at `I`, the registers above and `I` keep their values (D12); past the end of memory it is fatal and
writes nothing. -/
def Obligations.LoadRegistersCopiesFromMemory : Prop :=
  ∀ (x : Reg) (s : State),
    (indexAddr s + regCount x ≤ s.cfg.memBytes → ∃ t, exec (.loadRegisters x) s = .next t ∧
      t = { s with x := t.x } ∧ (∀ r : Reg, r ≤ x → reg t r = readByte s (indexAddr s + r.val)) ∧
      ∀ r : Reg, x < r → reg t r = reg s r) ∧
    (s.cfg.memBytes < indexAddr s + regCount x → ∃ t, exec (.loadRegisters x) s = .next t ∧
      Halts (.outOfBounds (indexAddr s) (x.val + 1)) s t)

/-- R147: stored registers load back into any register file, where `I` and memory are as the store left them. -/
def Obligations.StoredRegistersLoadBack : Prop :=
  ∀ (x : Reg) (s t u : State), Memory.wf s.cfg s.mem → indexAddr s + regCount x ≤ s.cfg.memBytes →
    exec (.storeRegisters x) s = .next t → u.cfg = t.cfg → u.mem = t.mem → u.i = t.i →
    ∃ v, exec (.loadRegisters x) u = .next v ∧ (∀ r : Reg, r ≤ x → reg v r = reg s r) ∧
      ∀ r : Reg, x < r → reg v r = reg u r

/-! ## Display (spec/44_display.md) -/

/-- R151: `Cls` clears every pixel and nothing else. -/
def Obligations.ClsClearsEveryPixel : Prop :=
  ∀ s : State, ∃ t, exec .cls s = .next t ∧ t = { s with fb := t.fb } ∧ ∀ r c, pixel t.fb r c = false

/-- R150, R152, R153: `Draw` inverts exactly the pixels that a set sprite bit lands on, wrapped on both axes, and VF tells
whether one of them was lit; past the end of memory it is fatal and changes nothing. -/
def Obligations.DrawInvertsPixelsAndReportsCollision : Prop :=
  ∀ (x y : Reg) (n : Fin 16) (s : State),
    (indexAddr s + n.val ≤ s.cfg.memBytes → ∃ t rows, exec (.draw x y n) s = .next t ∧
      memRead s (indexAddr s) n.val = .ok rows ∧
      t = { s with fb := t.fb, x := t.x } ∧ (∀ r, r ≠ vf → reg t r = reg s r) ∧
      (∀ row col, SpriteCovers rows (reg s x).toNat (reg s y).toNat row col → pixel t.fb row col = !pixel s.fb row col) ∧
      (∀ row col, ¬ SpriteCovers rows (reg s x).toNat (reg s y).toNat row col → pixel t.fb row col = pixel s.fb row col) ∧
      ((∃ row col, SpriteCovers rows (reg s x).toNat (reg s y).toNat row col ∧ pixel s.fb row col = true) →
        (reg t vf).toNat = 1) ∧
      ((∀ row col, SpriteCovers rows (reg s x).toNat (reg s y).toNat row col → pixel s.fb row col = false) →
        (reg t vf).toNat = 0)) ∧
    (s.cfg.memBytes < indexAddr s + n.val → ∃ t, exec (.draw x y n) s = .next t ∧
      Halts (.outOfBounds (indexAddr s) n.val) s t)

/-- R154: the packed-byte composer is the per-pixel one, framebuffer and collision alike. -/
def Obligations.PackedComposerIsThePixelComposer : Prop :=
  ∀ (x0 y0 : Nat) (rows : List Byte) (fb : Framebuffer), drawSpritePacked x0 y0 rows fb = drawSprite x0 y0 rows fb

/-- R155: the same sprite drawn twice leaves the framebuffer as it was, and the second draw collides exactly when a set sprite
bit fell on a pixel that was dark before the first. -/
def Obligations.DrawingTwiceRestoresTheScreen : Prop :=
  ∀ (x0 y0 : Nat) (rows : List Byte) (fb : Framebuffer), rows.length ≤ 15 →
    (drawSprite x0 y0 rows (drawSprite x0 y0 rows fb).fb).fb = fb ∧
    ((drawSprite x0 y0 rows (drawSprite x0 y0 rows fb).fb).coll = true ↔
      ∃ row col, SpriteCovers rows x0 y0 row col ∧ pixel fb row col = false)

/-! ## Random, keys and timers (spec/45_timers_keys_random.md) -/

/-- R166: Vx gets the byte of the `rand_byte` input (the spec's choice D14) masked by `KK`, whatever that byte is, so it has no bit that `KK` lacks;
the draw is counted (log entries 1 and 7). -/
def Obligations.RandMasksTheInputByte : Prop :=
  ∀ (x : Reg) (kk : Byte) (s : State), ∃ t, exec (.rand x kk) s = .next t ∧
    t = { s with x := t.x, draws := s.draws + 1 } ∧ (∀ r, r ≠ x → reg t r = reg s r) ∧
    reg t x = Config.freeRandByte s.draws &&& kk ∧
    ∀ k, (reg t x).getLsbD k = true → kk.getLsbD k = true

/-- R167, R168: the key skips, on a key that is down, on one that is up, and the fatal fault on a number that names no key
(the spec's choice D11). -/
def Obligations.KeySkipsReadTheSampledKeys : Prop :=
  ∀ (x : Reg) (s : State),
    (∀ k : Fin 16, (reg s x).toNat = k.val →
      exec (.skipKey x) s = .next { s with pc := if s.keys[k] = true then s.pc + 2 else s.pc } ∧
      exec (.skipNotKey x) s = .next { s with pc := if s.keys[k] = true then s.pc else s.pc + 2 }) ∧
    (0xF < (reg s x).toNat →
      (∃ t, exec (.skipKey x) s = .next t ∧ Halts (.indexOutOfRange (reg s x) (s.pc - 2)) s t) ∧
      (∃ t, exec (.skipNotKey x) s = .next t ∧ Halts (.indexOutOfRange (reg s x) (s.pc - 2)) s t))

/-- R169: `LoadKey` makes the machine wait and writes no general register; a key press then writes the key's number to the
waiting register, marks that key down and lets the machine run, and changes nothing else (the spec's choice D15). -/
def Obligations.LoadKeyWaitsAndAPressCompletesIt : Prop :=
  ∀ (x : Reg) (s : State),
    exec (.loadKey x) s = .next { s with waitreg := x, phase := .waitKey } ∧
    ∀ (k : Fin 16) (u : State), u.phase = .waitKey → u.waitreg = x →
      (keyPress k u = { u with x := (keyPress k u).x, keys := (keyPress k u).keys, phase := .run }) ∧
      (reg (keyPress k u) x).toNat = k.val ∧ (∀ r, r ≠ x → reg (keyPress k u) r = reg u r) ∧
      (keyPress k u).keys[k] = true ∧ ∀ j : Fin 16, j ≠ k → (keyPress k u).keys[j] = u.keys[j]

/-- R170, R171, R172, R203: the timer instructions, and the tone that follows the sound timer (general knowledge G11 and the
spec's choice D16). -/
def Obligations.TimerInstructionsMoveTheTimers : Prop :=
  ∀ (x : Reg) (s : State),
    (∃ t, exec (.loadDelay x) s = .next t ∧ reg t x = s.dt ∧ OnlyRegs [x] s t) ∧
    exec (.setDelay x) s = .next { s with dt := reg s x } ∧
    (∃ t, exec (.setSound x) s = .next t ∧ t = { s with st := reg s x } ∧ (tone t = true ↔ reg s x ≠ 0))
end

