-- ==== Sys2Proof/Laws/Encoding.lean ====
section
/-! SUPPORT. The fields of a packed word, and a word as the packing of its fields (spec/30_encoding.md R71, R72). -/

namespace Sys2Proof

/-! ## Slices of a concatenation -/

theorem extract_append_low {m n : Nat} (k l : Nat) (a : BitVec m) (b : BitVec n) (h : k + l ≤ n) :
    (a ++ b).extractLsb' k l = b.extractLsb' k l := by
  ext i hi
  simp [BitVec.getLsbD_append]
  omega

theorem extract_append_high {m n : Nat} (k l : Nat) (a : BitVec m) (b : BitVec n) :
    (a ++ b).extractLsb' (n + k) l = a.extractLsb' k l := by
  ext i hi
  simp only [BitVec.getElem_extractLsb', BitVec.getLsbD_append]
  rw [if_neg (by omega)]
  congr 1
  omega

theorem extract_whole {n : Nat} (a : BitVec n) : a.extractLsb' 0 n = a := by
  ext i hi
  simp

@[simp] theorem toFin_fieldBits (r : Fin 16) : (fieldBits r).toFin = r := rfl

@[simp] theorem fieldBits_toFin (b : BitVec 4) : fieldBits b.toFin = b := rfl

/-! ## The format NNN -/

@[simp] theorem fieldN1_packNNN (n1 : BitVec 4) (nnn : Addr12) : fieldN1 (packNNN n1 nnn) = n1 :=
  (extract_append_high 0 4 n1 nnn).trans (extract_whole n1)

@[simp] theorem fieldNNN_packNNN (n1 : BitVec 4) (nnn : Addr12) : fieldNNN (packNNN n1 nnn) = nnn :=
  (extract_append_low 0 12 n1 nnn (by omega)).trans (extract_whole nnn)

/-! ## The formats XKK and X -/

@[simp] theorem fieldN1_packXKK (n1 : BitVec 4) (x : Reg) (kk : Byte) : fieldN1 (packXKK n1 x kk) = n1 :=
  ((extract_append_high 4 4 (n1 ++ fieldBits x) kk).trans (extract_append_high 0 4 n1 (fieldBits x))).trans
    (extract_whole n1)

@[simp] theorem fieldX_packXKK (n1 : BitVec 4) (x : Reg) (kk : Byte) : fieldX (packXKK n1 x kk) = x :=
  congrArg BitVec.toFin (((extract_append_high 0 4 (n1 ++ fieldBits x) kk).trans
    (extract_append_low 0 4 n1 (fieldBits x) (by omega))).trans (extract_whole (fieldBits x)))

@[simp] theorem fieldKK_packXKK (n1 : BitVec 4) (x : Reg) (kk : Byte) : fieldKK (packXKK n1 x kk) = kk :=
  (extract_append_low 0 8 (n1 ++ fieldBits x) kk (by omega)).trans (extract_whole kk)

/-! ## The formats XY and XYN -/

@[simp] theorem fieldN1_packXYN (n1 : BitVec 4) (x y : Reg) (n4 : BitVec 4) : fieldN1 (packXYN n1 x y n4) = n1 :=
  (((extract_append_high 8 4 (n1 ++ fieldBits x ++ fieldBits y) n4).trans
    (extract_append_high 4 4 (n1 ++ fieldBits x) (fieldBits y))).trans
    (extract_append_high 0 4 n1 (fieldBits x))).trans (extract_whole n1)

@[simp] theorem fieldX_packXYN (n1 : BitVec 4) (x y : Reg) (n4 : BitVec 4) : fieldX (packXYN n1 x y n4) = x :=
  congrArg BitVec.toFin ((((extract_append_high 4 4 (n1 ++ fieldBits x ++ fieldBits y) n4).trans
    (extract_append_high 0 4 (n1 ++ fieldBits x) (fieldBits y))).trans
    (extract_append_low 0 4 n1 (fieldBits x) (by omega))).trans (extract_whole (fieldBits x)))

@[simp] theorem fieldY_packXYN (n1 : BitVec 4) (x y : Reg) (n4 : BitVec 4) : fieldY (packXYN n1 x y n4) = y :=
  congrArg BitVec.toFin (((extract_append_high 0 4 (n1 ++ fieldBits x ++ fieldBits y) n4).trans
    (extract_append_low 0 4 (n1 ++ fieldBits x) (fieldBits y) (by omega))).trans (extract_whole (fieldBits y)))

theorem extract_packXYN_low (n1 : BitVec 4) (x y : Reg) (n4 : BitVec 4) : (packXYN n1 x y n4).extractLsb' 0 4 = n4 :=
  (extract_append_low 0 4 (n1 ++ fieldBits x ++ fieldBits y) n4 (by omega)).trans (extract_whole n4)

@[simp] theorem fieldN4_packXYN (n1 : BitVec 4) (x y : Reg) (n4 : BitVec 4) : fieldN4 (packXYN n1 x y n4) = n4 :=
  extract_packXYN_low n1 x y n4

@[simp] theorem fieldN_packXYN (n1 : BitVec 4) (x y : Reg) (n4 : BitVec 4) : fieldN (packXYN n1 x y n4) = n4.toFin :=
  congrArg BitVec.toFin (extract_packXYN_low n1 x y n4)

/-! ## A word is the packing of its fields -/

theorem packNNN_toNat (n1 : BitVec 4) (nnn : Addr12) : (packNNN n1 nnn).toNat = n1.toNat * 4096 + nnn.toNat := by
  have h := BitVec.toNat_append n1 nnn
  rw [← Nat.shiftLeft_add_eq_or_of_lt nnn.isLt, Nat.shiftLeft_eq] at h
  exact h

theorem packXKK_toNat (n1 : BitVec 4) (x : Reg) (kk : Byte) :
    (packXKK n1 x kk).toNat = n1.toNat * 4096 + x.val * 256 + kk.toNat := by
  have h := BitVec.toNat_append (n1 ++ fieldBits x) kk
  rw [← Nat.shiftLeft_add_eq_or_of_lt kk.isLt, Nat.shiftLeft_eq, BitVec.toNat_append n1,
    ← Nat.shiftLeft_add_eq_or_of_lt (fieldBits x).isLt, Nat.shiftLeft_eq] at h
  have hx : (fieldBits x).toNat = x.val := rfl
  refine h.trans ?_
  rw [hx]
  omega

theorem packXYN_toNat (n1 : BitVec 4) (x y : Reg) (n4 : BitVec 4) :
    (packXYN n1 x y n4).toNat = n1.toNat * 4096 + x.val * 256 + y.val * 16 + n4.toNat := by
  have h := BitVec.toNat_append (n1 ++ fieldBits x ++ fieldBits y) n4
  rw [← Nat.shiftLeft_add_eq_or_of_lt n4.isLt, Nat.shiftLeft_eq, BitVec.toNat_append (n1 ++ fieldBits x),
    ← Nat.shiftLeft_add_eq_or_of_lt (fieldBits y).isLt, Nat.shiftLeft_eq, BitVec.toNat_append n1,
    ← Nat.shiftLeft_add_eq_or_of_lt (fieldBits x).isLt, Nat.shiftLeft_eq] at h
  have hx : (fieldBits x).toNat = x.val := rfl
  have hy : (fieldBits y).toNat = y.val := rfl
  refine h.trans ?_
  rw [hx, hy]
  omega

theorem fieldN1_toNat (w : Word) : (fieldN1 w).toNat = w.toNat / 4096 := by
  have := w.isLt
  simp only [fieldN1, BitVec.extractLsb'_toNat, Nat.shiftRight_eq_div_pow]
  omega

theorem fieldN4_toNat (w : Word) : (fieldN4 w).toNat = w.toNat % 16 := by
  simp [fieldN4]

theorem fieldKK_toNat (w : Word) : (fieldKK w).toNat = w.toNat % 256 := by
  simp [fieldKK]

theorem fieldNNN_toNat (w : Word) : (fieldNNN w).toNat = w.toNat % 4096 := by
  simp [fieldNNN]

theorem fieldX_val (w : Word) : (fieldX w).val = w.toNat / 256 % 16 := by
  show (w.extractLsb' 8 4).toNat = _
  simp [Nat.shiftRight_eq_div_pow]

theorem fieldY_val (w : Word) : (fieldY w).val = w.toNat / 16 % 16 := by
  show (w.extractLsb' 4 4).toNat = _
  simp [Nat.shiftRight_eq_div_pow]

theorem packNNN_fields (w : Word) : packNNN (fieldN1 w) (fieldNNN w) = w := by
  apply BitVec.eq_of_toNat_eq
  rw [packNNN_toNat, fieldN1_toNat, fieldNNN_toNat]
  omega

theorem packXKK_fields (w : Word) : packXKK (fieldN1 w) (fieldX w) (fieldKK w) = w := by
  apply BitVec.eq_of_toNat_eq
  rw [packXKK_toNat, fieldN1_toNat, fieldX_val, fieldKK_toNat]
  omega

theorem packXYN_fields (w : Word) : packXYN (fieldN1 w) (fieldX w) (fieldY w) (fieldN4 w) = w := by
  apply BitVec.eq_of_toNat_eq
  rw [packXYN_toNat, fieldN1_toNat, fieldX_val, fieldY_val, fieldN4_toNat]
  omega

/-! ## Masks of the opcode map (R75) -/

theorem and_append {m n : Nat} (a c : BitVec m) (b d : BitVec n) : (a ++ b) &&& (c ++ d) = (a &&& c) ++ (b &&& d) := by
  ext i hi
  simp only [BitVec.getElem_and, BitVec.getElem_append]
  split <;> simp

theorem append_eq_append {m n : Nat} {a c : BitVec m} {b d : BitVec n} : a ++ b = c ++ d ↔ a = c ∧ b = d := by
  constructor
  · intro h
    have high := congrArg (BitVec.extractLsb' (n + 0) m) h
    have low := congrArg (BitVec.extractLsb' 0 n) h
    rw [extract_append_high, extract_append_high, extract_whole, extract_whole] at high
    rw [extract_append_low _ _ _ _ (by omega), extract_append_low _ _ _ _ (by omega), extract_whole, extract_whole] at low
    exact ⟨high, low⟩
  · rintro ⟨rfl, rfl⟩
    rfl

theorem and_allOnes4 (b : BitVec 4) : b &&& 0xF#4 = b := BitVec.and_allOnes

theorem and_allOnes8 (b : BitVec 8) : b &&& 0xFF#8 = b := BitVec.and_allOnes

/-- A row whose mask is 0xF000 selects by `N1`. -/
theorem mask_N1 (w : Word) (n1 : BitVec 4) : w &&& 0xF000#16 = packNNN n1 0 ↔ fieldN1 w = n1 := by
  have h : w &&& 0xF000#16 = (fieldN1 w &&& 0xF#4) ++ (fieldNNN w &&& 0#12) := by
    conv_lhs => rw [← packNNN_fields w]
    exact and_append (fieldN1 w) 0xF#4 (fieldNNN w) 0#12
  rw [h, and_allOnes4, BitVec.and_zero]
  exact append_eq_append.trans (by simp)

/-- A row whose mask is 0xF00F selects by `N1` and `N4`. -/
theorem mask_N1_N4 (w : Word) (n1 n4 : BitVec 4) :
    w &&& 0xF00F#16 = packXYN n1 0 0 n4 ↔ fieldN1 w = n1 ∧ fieldN4 w = n4 := by
  have h : w &&& 0xF00F#16 = packXYN (fieldN1 w &&& 0xF#4) 0 0 (fieldN4 w &&& 0xF#4) := by
    conv_lhs => rw [← packXYN_fields w]
    refine (and_append (fieldN1 w ++ fieldBits (fieldX w) ++ fieldBits (fieldY w)) (0xF#4 ++ 0#4 ++ 0#4) (fieldN4 w) 0xF#4).trans ?_
    rw [and_append, and_append, BitVec.and_zero, BitVec.and_zero]
    rfl
  rw [h, and_allOnes4, and_allOnes4]
  constructor
  · intro e
    exact ⟨by simpa only [fieldN1_packXYN] using congrArg fieldN1 e,
      by simpa only [fieldN4_packXYN] using congrArg fieldN4 e⟩
  · rintro ⟨rfl, rfl⟩
    rfl

/-- A row whose mask is 0xF0FF selects by `N1` and `KK`. -/
theorem mask_N1_KK (w : Word) (n1 : BitVec 4) (kk : Byte) :
    w &&& 0xF0FF#16 = packXKK n1 0 kk ↔ fieldN1 w = n1 ∧ fieldKK w = kk := by
  have h : w &&& 0xF0FF#16 = packXKK (fieldN1 w &&& 0xF#4) 0 (fieldKK w &&& 0xFF#8) := by
    conv_lhs => rw [← packXKK_fields w]
    refine (and_append (fieldN1 w ++ fieldBits (fieldX w)) (0xF#4 ++ 0#4) (fieldKK w) 0xFF#8).trans ?_
    rw [and_append, BitVec.and_zero]
    rfl
  rw [h, and_allOnes4, and_allOnes8]
  constructor
  · intro e
    exact ⟨by simpa only [fieldN1_packXKK] using congrArg fieldN1 e,
      by simpa only [fieldKK_packXKK] using congrArg fieldKK e⟩
  · rintro ⟨rfl, rfl⟩
    rfl

/-! ## Bytes in memory -/

@[simp] theorem wordOfBytes_bytes (w : Word) : wordOfBytes (highByte w) (lowByte w) = w := by
  apply BitVec.eq_of_toNat_eq
  have h := BitVec.toNat_append (highByte w) (lowByte w)
  rw [← Nat.shiftLeft_add_eq_or_of_lt (lowByte w).isLt, Nat.shiftLeft_eq] at h
  refine h.trans ?_
  have := w.isLt
  simp only [highByte, lowByte, BitVec.extractLsb'_toNat, Nat.shiftRight_eq_div_pow]
  omega

end Sys2Proof
end

