-- ==== Sys2Proof/Laws/State.lean ====
section
/-! SUPPORT. One lemma per field per named update of State, for simp: what the update writes, and that it leaves every other field as it was. -/

namespace Sys2Proof.Machine

variable (s : State)

/-! ### writeReg -/

@[simp] theorem writeReg_cfg (r : Reg) (v : Byte) : (writeReg r v s).cfg = s.cfg := rfl
@[simp] theorem writeReg_x (r : Reg) (v : Byte) : (writeReg r v s).x = s.x.set r v := rfl
@[simp] theorem writeReg_pc (r : Reg) (v : Byte) : (writeReg r v s).pc = s.pc := rfl
@[simp] theorem writeReg_i (r : Reg) (v : Byte) : (writeReg r v s).i = s.i := rfl
@[simp] theorem writeReg_sp (r : Reg) (v : Byte) : (writeReg r v s).sp = s.sp := rfl
@[simp] theorem writeReg_stack (r : Reg) (v : Byte) : (writeReg r v s).stack = s.stack := rfl
@[simp] theorem writeReg_dt (r : Reg) (v : Byte) : (writeReg r v s).dt = s.dt := rfl
@[simp] theorem writeReg_st (r : Reg) (v : Byte) : (writeReg r v s).st = s.st := rfl
@[simp] theorem writeReg_mem (r : Reg) (v : Byte) : (writeReg r v s).mem = s.mem := rfl
@[simp] theorem writeReg_fb (r : Reg) (v : Byte) : (writeReg r v s).fb = s.fb := rfl
@[simp] theorem writeReg_keys (r : Reg) (v : Byte) : (writeReg r v s).keys = s.keys := rfl
@[simp] theorem writeReg_phase (r : Reg) (v : Byte) : (writeReg r v s).phase = s.phase := rfl
@[simp] theorem writeReg_waitreg (r : Reg) (v : Byte) : (writeReg r v s).waitreg = s.waitreg := rfl
@[simp] theorem writeReg_fcount (r : Reg) (v : Byte) : (writeReg r v s).fcount = s.fcount := rfl
@[simp] theorem writeReg_fault (r : Reg) (v : Byte) : (writeReg r v s).fault = s.fault := rfl
@[simp] theorem writeReg_frameMove (r : Reg) (v : Byte) : (writeReg r v s).frameMove = s.frameMove := rfl
@[simp] theorem writeReg_draws (r : Reg) (v : Byte) : (writeReg r v s).draws = s.draws := rfl
@[simp] theorem readByte_writeReg (r : Reg) (v : Byte) (addr : Nat) : readByte (writeReg r v s) addr = readByte s addr := rfl

/-! ### setPc -/

@[simp] theorem setPc_cfg (a : Word) : (setPc a s).cfg = s.cfg := rfl
@[simp] theorem setPc_x (a : Word) : (setPc a s).x = s.x := rfl
@[simp] theorem setPc_pc (a : Word) : (setPc a s).pc = a := rfl
@[simp] theorem setPc_i (a : Word) : (setPc a s).i = s.i := rfl
@[simp] theorem setPc_sp (a : Word) : (setPc a s).sp = s.sp := rfl
@[simp] theorem setPc_stack (a : Word) : (setPc a s).stack = s.stack := rfl
@[simp] theorem setPc_dt (a : Word) : (setPc a s).dt = s.dt := rfl
@[simp] theorem setPc_st (a : Word) : (setPc a s).st = s.st := rfl
@[simp] theorem setPc_mem (a : Word) : (setPc a s).mem = s.mem := rfl
@[simp] theorem setPc_fb (a : Word) : (setPc a s).fb = s.fb := rfl
@[simp] theorem setPc_keys (a : Word) : (setPc a s).keys = s.keys := rfl
@[simp] theorem setPc_phase (a : Word) : (setPc a s).phase = s.phase := rfl
@[simp] theorem setPc_waitreg (a : Word) : (setPc a s).waitreg = s.waitreg := rfl
@[simp] theorem setPc_fcount (a : Word) : (setPc a s).fcount = s.fcount := rfl
@[simp] theorem setPc_fault (a : Word) : (setPc a s).fault = s.fault := rfl
@[simp] theorem setPc_frameMove (a : Word) : (setPc a s).frameMove = s.frameMove := rfl
@[simp] theorem setPc_draws (a : Word) : (setPc a s).draws = s.draws := rfl
@[simp] theorem reg_setPc (a : Word) (q : Reg) : reg (setPc a s) q = reg s q := rfl
@[simp] theorem readByte_setPc (a : Word) (addr : Nat) : readByte (setPc a s) addr = readByte s addr := rfl

/-! ### advancePc -/

@[simp] theorem advancePc_cfg : (advancePc s).cfg = s.cfg := rfl
@[simp] theorem advancePc_x : (advancePc s).x = s.x := rfl
@[simp] theorem advancePc_pc : (advancePc s).pc = s.pc + 2 := rfl
@[simp] theorem advancePc_i : (advancePc s).i = s.i := rfl
@[simp] theorem advancePc_sp : (advancePc s).sp = s.sp := rfl
@[simp] theorem advancePc_stack : (advancePc s).stack = s.stack := rfl
@[simp] theorem advancePc_dt : (advancePc s).dt = s.dt := rfl
@[simp] theorem advancePc_st : (advancePc s).st = s.st := rfl
@[simp] theorem advancePc_mem : (advancePc s).mem = s.mem := rfl
@[simp] theorem advancePc_fb : (advancePc s).fb = s.fb := rfl
@[simp] theorem advancePc_keys : (advancePc s).keys = s.keys := rfl
@[simp] theorem advancePc_phase : (advancePc s).phase = s.phase := rfl
@[simp] theorem advancePc_waitreg : (advancePc s).waitreg = s.waitreg := rfl
@[simp] theorem advancePc_fcount : (advancePc s).fcount = s.fcount := rfl
@[simp] theorem advancePc_fault : (advancePc s).fault = s.fault := rfl
@[simp] theorem advancePc_frameMove : (advancePc s).frameMove = s.frameMove := rfl
@[simp] theorem advancePc_draws : (advancePc s).draws = s.draws := rfl
@[simp] theorem reg_advancePc (q : Reg) : reg (advancePc s) q = reg s q := rfl
@[simp] theorem readByte_advancePc (addr : Nat) : readByte (advancePc s) addr = readByte s addr := rfl

/-! ### skipIf -/

@[simp] theorem skipIf_cfg (c : Bool) : (skipIf c s).cfg = s.cfg := by unfold skipIf; split <;> rfl
@[simp] theorem skipIf_x (c : Bool) : (skipIf c s).x = s.x := by unfold skipIf; split <;> rfl
@[simp] theorem skipIf_pc (c : Bool) : (skipIf c s).pc = if c then s.pc + 2 else s.pc := by unfold skipIf; split <;> rfl
@[simp] theorem skipIf_i (c : Bool) : (skipIf c s).i = s.i := by unfold skipIf; split <;> rfl
@[simp] theorem skipIf_sp (c : Bool) : (skipIf c s).sp = s.sp := by unfold skipIf; split <;> rfl
@[simp] theorem skipIf_stack (c : Bool) : (skipIf c s).stack = s.stack := by unfold skipIf; split <;> rfl
@[simp] theorem skipIf_dt (c : Bool) : (skipIf c s).dt = s.dt := by unfold skipIf; split <;> rfl
@[simp] theorem skipIf_st (c : Bool) : (skipIf c s).st = s.st := by unfold skipIf; split <;> rfl
@[simp] theorem skipIf_mem (c : Bool) : (skipIf c s).mem = s.mem := by unfold skipIf; split <;> rfl
@[simp] theorem skipIf_fb (c : Bool) : (skipIf c s).fb = s.fb := by unfold skipIf; split <;> rfl
@[simp] theorem skipIf_keys (c : Bool) : (skipIf c s).keys = s.keys := by unfold skipIf; split <;> rfl
@[simp] theorem skipIf_phase (c : Bool) : (skipIf c s).phase = s.phase := by unfold skipIf; split <;> rfl
@[simp] theorem skipIf_waitreg (c : Bool) : (skipIf c s).waitreg = s.waitreg := by unfold skipIf; split <;> rfl
@[simp] theorem skipIf_fcount (c : Bool) : (skipIf c s).fcount = s.fcount := by unfold skipIf; split <;> rfl
@[simp] theorem skipIf_fault (c : Bool) : (skipIf c s).fault = s.fault := by unfold skipIf; split <;> rfl
@[simp] theorem skipIf_frameMove (c : Bool) : (skipIf c s).frameMove = s.frameMove := by unfold skipIf; split <;> rfl
@[simp] theorem skipIf_draws (c : Bool) : (skipIf c s).draws = s.draws := by unfold skipIf; split <;> rfl
@[simp] theorem reg_skipIf (c : Bool) (q : Reg) : reg (skipIf c s) q = reg s q := by simp [reg]
@[simp] theorem readByte_skipIf (c : Bool) (addr : Nat) : readByte (skipIf c s) addr = readByte s addr := by simp [readByte]

/-! ### setIndex -/

@[simp] theorem setIndex_cfg (a : Word) : (setIndex a s).cfg = s.cfg := rfl
@[simp] theorem setIndex_x (a : Word) : (setIndex a s).x = s.x := rfl
@[simp] theorem setIndex_pc (a : Word) : (setIndex a s).pc = s.pc := rfl
@[simp] theorem setIndex_i (a : Word) : (setIndex a s).i = a := rfl
@[simp] theorem setIndex_sp (a : Word) : (setIndex a s).sp = s.sp := rfl
@[simp] theorem setIndex_stack (a : Word) : (setIndex a s).stack = s.stack := rfl
@[simp] theorem setIndex_dt (a : Word) : (setIndex a s).dt = s.dt := rfl
@[simp] theorem setIndex_st (a : Word) : (setIndex a s).st = s.st := rfl
@[simp] theorem setIndex_mem (a : Word) : (setIndex a s).mem = s.mem := rfl
@[simp] theorem setIndex_fb (a : Word) : (setIndex a s).fb = s.fb := rfl
@[simp] theorem setIndex_keys (a : Word) : (setIndex a s).keys = s.keys := rfl
@[simp] theorem setIndex_phase (a : Word) : (setIndex a s).phase = s.phase := rfl
@[simp] theorem setIndex_waitreg (a : Word) : (setIndex a s).waitreg = s.waitreg := rfl
@[simp] theorem setIndex_fcount (a : Word) : (setIndex a s).fcount = s.fcount := rfl
@[simp] theorem setIndex_fault (a : Word) : (setIndex a s).fault = s.fault := rfl
@[simp] theorem setIndex_frameMove (a : Word) : (setIndex a s).frameMove = s.frameMove := rfl
@[simp] theorem setIndex_draws (a : Word) : (setIndex a s).draws = s.draws := rfl
@[simp] theorem reg_setIndex (a : Word) (q : Reg) : reg (setIndex a s) q = reg s q := rfl
@[simp] theorem readByte_setIndex (a : Word) (addr : Nat) : readByte (setIndex a s) addr = readByte s addr := rfl

/-! ### writeFlag -/

@[simp] theorem writeFlag_cfg (f : Bool) : (writeFlag f s).cfg = s.cfg := rfl
@[simp] theorem writeFlag_x (f : Bool) : (writeFlag f s).x = s.x.set vf (flagByte f) := rfl
@[simp] theorem writeFlag_pc (f : Bool) : (writeFlag f s).pc = s.pc := rfl
@[simp] theorem writeFlag_i (f : Bool) : (writeFlag f s).i = s.i := rfl
@[simp] theorem writeFlag_sp (f : Bool) : (writeFlag f s).sp = s.sp := rfl
@[simp] theorem writeFlag_stack (f : Bool) : (writeFlag f s).stack = s.stack := rfl
@[simp] theorem writeFlag_dt (f : Bool) : (writeFlag f s).dt = s.dt := rfl
@[simp] theorem writeFlag_st (f : Bool) : (writeFlag f s).st = s.st := rfl
@[simp] theorem writeFlag_mem (f : Bool) : (writeFlag f s).mem = s.mem := rfl
@[simp] theorem writeFlag_fb (f : Bool) : (writeFlag f s).fb = s.fb := rfl
@[simp] theorem writeFlag_keys (f : Bool) : (writeFlag f s).keys = s.keys := rfl
@[simp] theorem writeFlag_phase (f : Bool) : (writeFlag f s).phase = s.phase := rfl
@[simp] theorem writeFlag_waitreg (f : Bool) : (writeFlag f s).waitreg = s.waitreg := rfl
@[simp] theorem writeFlag_fcount (f : Bool) : (writeFlag f s).fcount = s.fcount := rfl
@[simp] theorem writeFlag_fault (f : Bool) : (writeFlag f s).fault = s.fault := rfl
@[simp] theorem writeFlag_frameMove (f : Bool) : (writeFlag f s).frameMove = s.frameMove := rfl
@[simp] theorem writeFlag_draws (f : Bool) : (writeFlag f s).draws = s.draws := rfl
@[simp] theorem readByte_writeFlag (f : Bool) (addr : Nat) : readByte (writeFlag f s) addr = readByte s addr := rfl

/-! ### writeResultAndFlag -/

@[simp] theorem writeResultAndFlag_cfg (r : Reg) (v : Byte) (f : Bool) : (writeResultAndFlag r v f s).cfg = s.cfg := by unfold writeResultAndFlag; split <;> rfl
@[simp] theorem writeResultAndFlag_pc (r : Reg) (v : Byte) (f : Bool) : (writeResultAndFlag r v f s).pc = s.pc := by unfold writeResultAndFlag; split <;> rfl
@[simp] theorem writeResultAndFlag_i (r : Reg) (v : Byte) (f : Bool) : (writeResultAndFlag r v f s).i = s.i := by unfold writeResultAndFlag; split <;> rfl
@[simp] theorem writeResultAndFlag_sp (r : Reg) (v : Byte) (f : Bool) : (writeResultAndFlag r v f s).sp = s.sp := by unfold writeResultAndFlag; split <;> rfl
@[simp] theorem writeResultAndFlag_stack (r : Reg) (v : Byte) (f : Bool) : (writeResultAndFlag r v f s).stack = s.stack := by unfold writeResultAndFlag; split <;> rfl
@[simp] theorem writeResultAndFlag_dt (r : Reg) (v : Byte) (f : Bool) : (writeResultAndFlag r v f s).dt = s.dt := by unfold writeResultAndFlag; split <;> rfl
@[simp] theorem writeResultAndFlag_st (r : Reg) (v : Byte) (f : Bool) : (writeResultAndFlag r v f s).st = s.st := by unfold writeResultAndFlag; split <;> rfl
@[simp] theorem writeResultAndFlag_mem (r : Reg) (v : Byte) (f : Bool) : (writeResultAndFlag r v f s).mem = s.mem := by unfold writeResultAndFlag; split <;> rfl
@[simp] theorem writeResultAndFlag_fb (r : Reg) (v : Byte) (f : Bool) : (writeResultAndFlag r v f s).fb = s.fb := by unfold writeResultAndFlag; split <;> rfl
@[simp] theorem writeResultAndFlag_keys (r : Reg) (v : Byte) (f : Bool) : (writeResultAndFlag r v f s).keys = s.keys := by unfold writeResultAndFlag; split <;> rfl
@[simp] theorem writeResultAndFlag_phase (r : Reg) (v : Byte) (f : Bool) : (writeResultAndFlag r v f s).phase = s.phase := by unfold writeResultAndFlag; split <;> rfl
@[simp] theorem writeResultAndFlag_waitreg (r : Reg) (v : Byte) (f : Bool) : (writeResultAndFlag r v f s).waitreg = s.waitreg := by unfold writeResultAndFlag; split <;> rfl
@[simp] theorem writeResultAndFlag_fcount (r : Reg) (v : Byte) (f : Bool) : (writeResultAndFlag r v f s).fcount = s.fcount := by unfold writeResultAndFlag; split <;> rfl
@[simp] theorem writeResultAndFlag_fault (r : Reg) (v : Byte) (f : Bool) : (writeResultAndFlag r v f s).fault = s.fault := by unfold writeResultAndFlag; split <;> rfl
@[simp] theorem writeResultAndFlag_frameMove (r : Reg) (v : Byte) (f : Bool) : (writeResultAndFlag r v f s).frameMove = s.frameMove := by unfold writeResultAndFlag; split <;> rfl
@[simp] theorem writeResultAndFlag_draws (r : Reg) (v : Byte) (f : Bool) : (writeResultAndFlag r v f s).draws = s.draws := by unfold writeResultAndFlag; split <;> rfl
@[simp] theorem readByte_writeResultAndFlag (r : Reg) (v : Byte) (f : Bool) (addr : Nat) : readByte (writeResultAndFlag r v f s) addr = readByte s addr := by simp [readByte]

/-! ### writeRegs -/

@[simp] theorem writeRegs_cfg (bytes : List Byte) : (writeRegs bytes s).cfg = s.cfg := by rw [writeRegs]
@[simp] theorem writeRegs_x (bytes : List Byte) : (writeRegs bytes s).x = Vector.ofFn fun r : Fin 16 => (bytes[r.val]?).getD (reg s r) := rfl
@[simp] theorem writeRegs_pc (bytes : List Byte) : (writeRegs bytes s).pc = s.pc := by rw [writeRegs]
@[simp] theorem writeRegs_i (bytes : List Byte) : (writeRegs bytes s).i = s.i := by rw [writeRegs]
@[simp] theorem writeRegs_sp (bytes : List Byte) : (writeRegs bytes s).sp = s.sp := by rw [writeRegs]
@[simp] theorem writeRegs_stack (bytes : List Byte) : (writeRegs bytes s).stack = s.stack := by rw [writeRegs]
@[simp] theorem writeRegs_dt (bytes : List Byte) : (writeRegs bytes s).dt = s.dt := by rw [writeRegs]
@[simp] theorem writeRegs_st (bytes : List Byte) : (writeRegs bytes s).st = s.st := by rw [writeRegs]
@[simp] theorem writeRegs_mem (bytes : List Byte) : (writeRegs bytes s).mem = s.mem := by rw [writeRegs]
@[simp] theorem writeRegs_fb (bytes : List Byte) : (writeRegs bytes s).fb = s.fb := by rw [writeRegs]
@[simp] theorem writeRegs_keys (bytes : List Byte) : (writeRegs bytes s).keys = s.keys := by rw [writeRegs]
@[simp] theorem writeRegs_phase (bytes : List Byte) : (writeRegs bytes s).phase = s.phase := by rw [writeRegs]
@[simp] theorem writeRegs_waitreg (bytes : List Byte) : (writeRegs bytes s).waitreg = s.waitreg := by rw [writeRegs]
@[simp] theorem writeRegs_fcount (bytes : List Byte) : (writeRegs bytes s).fcount = s.fcount := by rw [writeRegs]
@[simp] theorem writeRegs_fault (bytes : List Byte) : (writeRegs bytes s).fault = s.fault := by rw [writeRegs]
@[simp] theorem writeRegs_frameMove (bytes : List Byte) : (writeRegs bytes s).frameMove = s.frameMove := by rw [writeRegs]
@[simp] theorem writeRegs_draws (bytes : List Byte) : (writeRegs bytes s).draws = s.draws := by rw [writeRegs]
@[simp] theorem readByte_writeRegs (bytes : List Byte) (addr : Nat) : readByte (writeRegs bytes s) addr = readByte s addr := by simp [readByte]

/-! ### takeFault -/

@[simp] theorem takeFault_cfg (f : FaultRecord) : (takeFault f s).cfg = s.cfg := rfl
@[simp] theorem takeFault_x (f : FaultRecord) : (takeFault f s).x = s.x := rfl
@[simp] theorem takeFault_pc (f : FaultRecord) : (takeFault f s).pc = s.pc := rfl
@[simp] theorem takeFault_i (f : FaultRecord) : (takeFault f s).i = s.i := rfl
@[simp] theorem takeFault_sp (f : FaultRecord) : (takeFault f s).sp = s.sp := rfl
@[simp] theorem takeFault_stack (f : FaultRecord) : (takeFault f s).stack = s.stack := rfl
@[simp] theorem takeFault_dt (f : FaultRecord) : (takeFault f s).dt = s.dt := rfl
@[simp] theorem takeFault_st (f : FaultRecord) : (takeFault f s).st = s.st := rfl
@[simp] theorem takeFault_mem (f : FaultRecord) : (takeFault f s).mem = s.mem := rfl
@[simp] theorem takeFault_fb (f : FaultRecord) : (takeFault f s).fb = s.fb := rfl
@[simp] theorem takeFault_keys (f : FaultRecord) : (takeFault f s).keys = s.keys := rfl
@[simp] theorem takeFault_phase (f : FaultRecord) : (takeFault f s).phase = .halted := rfl
@[simp] theorem takeFault_waitreg (f : FaultRecord) : (takeFault f s).waitreg = s.waitreg := rfl
@[simp] theorem takeFault_fcount (f : FaultRecord) : (takeFault f s).fcount = s.fcount := rfl
@[simp] theorem takeFault_fault (f : FaultRecord) : (takeFault f s).fault = some (s.fault.getD f) := rfl
@[simp] theorem takeFault_frameMove (f : FaultRecord) : (takeFault f s).frameMove = s.frameMove := rfl
@[simp] theorem takeFault_draws (f : FaultRecord) : (takeFault f s).draws = s.draws := rfl
@[simp] theorem reg_takeFault (f : FaultRecord) (q : Reg) : reg (takeFault f s) q = reg s q := rfl
@[simp] theorem readByte_takeFault (f : FaultRecord) (addr : Nat) : readByte (takeFault f s) addr = readByte s addr := rfl

/-! ### countDraw -/

@[simp] theorem countDraw_cfg : (countDraw s).cfg = s.cfg := rfl
@[simp] theorem countDraw_x : (countDraw s).x = s.x := rfl
@[simp] theorem countDraw_pc : (countDraw s).pc = s.pc := rfl
@[simp] theorem countDraw_i : (countDraw s).i = s.i := rfl
@[simp] theorem countDraw_sp : (countDraw s).sp = s.sp := rfl
@[simp] theorem countDraw_stack : (countDraw s).stack = s.stack := rfl
@[simp] theorem countDraw_dt : (countDraw s).dt = s.dt := rfl
@[simp] theorem countDraw_st : (countDraw s).st = s.st := rfl
@[simp] theorem countDraw_mem : (countDraw s).mem = s.mem := rfl
@[simp] theorem countDraw_fb : (countDraw s).fb = s.fb := rfl
@[simp] theorem countDraw_keys : (countDraw s).keys = s.keys := rfl
@[simp] theorem countDraw_phase : (countDraw s).phase = s.phase := rfl
@[simp] theorem countDraw_waitreg : (countDraw s).waitreg = s.waitreg := rfl
@[simp] theorem countDraw_fcount : (countDraw s).fcount = s.fcount := rfl
@[simp] theorem countDraw_fault : (countDraw s).fault = s.fault := rfl
@[simp] theorem countDraw_frameMove : (countDraw s).frameMove = s.frameMove := rfl
@[simp] theorem countDraw_draws : (countDraw s).draws = s.draws + 1 := rfl
@[simp] theorem reg_countDraw (q : Reg) : reg (countDraw s) q = reg s q := rfl
@[simp] theorem readByte_countDraw (addr : Nat) : readByte (countDraw s) addr = readByte s addr := rfl

/-! ### tick -/

@[simp] theorem tick_cfg : (tick s).cfg = s.cfg := rfl
@[simp] theorem tick_x : (tick s).x = s.x := rfl
@[simp] theorem tick_pc : (tick s).pc = s.pc := rfl
@[simp] theorem tick_i : (tick s).i = s.i := rfl
@[simp] theorem tick_sp : (tick s).sp = s.sp := rfl
@[simp] theorem tick_stack : (tick s).stack = s.stack := rfl
@[simp] theorem tick_dt : (tick s).dt = countDown s.dt := rfl
@[simp] theorem tick_st : (tick s).st = countDown s.st := rfl
@[simp] theorem tick_mem : (tick s).mem = s.mem := rfl
@[simp] theorem tick_fb : (tick s).fb = s.fb := rfl
@[simp] theorem tick_keys : (tick s).keys = s.keys := rfl
@[simp] theorem tick_phase : (tick s).phase = s.phase := rfl
@[simp] theorem tick_waitreg : (tick s).waitreg = s.waitreg := rfl
@[simp] theorem tick_fcount : (tick s).fcount = s.fcount := rfl
@[simp] theorem tick_fault : (tick s).fault = s.fault := rfl
@[simp] theorem tick_frameMove : (tick s).frameMove = s.frameMove := rfl
@[simp] theorem tick_draws : (tick s).draws = s.draws := rfl
@[simp] theorem reg_tick (q : Reg) : reg (tick s) q = reg s q := rfl
@[simp] theorem readByte_tick (addr : Nat) : readByte (tick s) addr = readByte s addr := rfl

/-! ### pollKeys -/

@[simp] theorem pollKeys_cfg (newKeys : Keys) : (pollKeys newKeys s).cfg = s.cfg := rfl
@[simp] theorem pollKeys_x (newKeys : Keys) : (pollKeys newKeys s).x = s.x := rfl
@[simp] theorem pollKeys_pc (newKeys : Keys) : (pollKeys newKeys s).pc = s.pc := rfl
@[simp] theorem pollKeys_i (newKeys : Keys) : (pollKeys newKeys s).i = s.i := rfl
@[simp] theorem pollKeys_sp (newKeys : Keys) : (pollKeys newKeys s).sp = s.sp := rfl
@[simp] theorem pollKeys_stack (newKeys : Keys) : (pollKeys newKeys s).stack = s.stack := rfl
@[simp] theorem pollKeys_dt (newKeys : Keys) : (pollKeys newKeys s).dt = s.dt := rfl
@[simp] theorem pollKeys_st (newKeys : Keys) : (pollKeys newKeys s).st = s.st := rfl
@[simp] theorem pollKeys_mem (newKeys : Keys) : (pollKeys newKeys s).mem = s.mem := rfl
@[simp] theorem pollKeys_fb (newKeys : Keys) : (pollKeys newKeys s).fb = s.fb := rfl
@[simp] theorem pollKeys_keys (newKeys : Keys) : (pollKeys newKeys s).keys = newKeys := rfl
@[simp] theorem pollKeys_phase (newKeys : Keys) : (pollKeys newKeys s).phase = s.phase := rfl
@[simp] theorem pollKeys_waitreg (newKeys : Keys) : (pollKeys newKeys s).waitreg = s.waitreg := rfl
@[simp] theorem pollKeys_fcount (newKeys : Keys) : (pollKeys newKeys s).fcount = s.fcount := rfl
@[simp] theorem pollKeys_fault (newKeys : Keys) : (pollKeys newKeys s).fault = s.fault := rfl
@[simp] theorem pollKeys_frameMove (newKeys : Keys) : (pollKeys newKeys s).frameMove = s.frameMove := rfl
@[simp] theorem pollKeys_draws (newKeys : Keys) : (pollKeys newKeys s).draws = s.draws := rfl
@[simp] theorem reg_pollKeys (newKeys : Keys) (q : Reg) : reg (pollKeys newKeys s) q = reg s q := rfl
@[simp] theorem readByte_pollKeys (newKeys : Keys) (addr : Nat) : readByte (pollKeys newKeys s) addr = readByte s addr := rfl

/-! ### keyPress -/

@[simp] theorem keyPress_cfg (k : Fin 16) : (keyPress k s).cfg = s.cfg := rfl
@[simp] theorem keyPress_x (k : Fin 16) : (keyPress k s).x = s.x.set s.waitreg (BitVec.ofNat 8 k.val) := rfl
@[simp] theorem keyPress_pc (k : Fin 16) : (keyPress k s).pc = s.pc := rfl
@[simp] theorem keyPress_i (k : Fin 16) : (keyPress k s).i = s.i := rfl
@[simp] theorem keyPress_sp (k : Fin 16) : (keyPress k s).sp = s.sp := rfl
@[simp] theorem keyPress_stack (k : Fin 16) : (keyPress k s).stack = s.stack := rfl
@[simp] theorem keyPress_dt (k : Fin 16) : (keyPress k s).dt = s.dt := rfl
@[simp] theorem keyPress_st (k : Fin 16) : (keyPress k s).st = s.st := rfl
@[simp] theorem keyPress_mem (k : Fin 16) : (keyPress k s).mem = s.mem := rfl
@[simp] theorem keyPress_fb (k : Fin 16) : (keyPress k s).fb = s.fb := rfl
@[simp] theorem keyPress_keys (k : Fin 16) : (keyPress k s).keys = s.keys.set k true := rfl
@[simp] theorem keyPress_phase (k : Fin 16) : (keyPress k s).phase = .run := rfl
@[simp] theorem keyPress_waitreg (k : Fin 16) : (keyPress k s).waitreg = s.waitreg := rfl
@[simp] theorem keyPress_fcount (k : Fin 16) : (keyPress k s).fcount = s.fcount := rfl
@[simp] theorem keyPress_fault (k : Fin 16) : (keyPress k s).fault = s.fault := rfl
@[simp] theorem keyPress_frameMove (k : Fin 16) : (keyPress k s).frameMove = s.frameMove := rfl
@[simp] theorem keyPress_draws (k : Fin 16) : (keyPress k s).draws = s.draws := rfl
@[simp] theorem readByte_keyPress (k : Fin 16) (addr : Nat) : readByte (keyPress k s) addr = readByte s addr := rfl

/-! ### issue -/

@[simp] theorem issue_cfg : (issue s).cfg = s.cfg := rfl
@[simp] theorem issue_x : (issue s).x = s.x := rfl
@[simp] theorem issue_pc : (issue s).pc = s.pc := rfl
@[simp] theorem issue_i : (issue s).i = s.i := rfl
@[simp] theorem issue_sp : (issue s).sp = s.sp := rfl
@[simp] theorem issue_stack : (issue s).stack = s.stack := rfl
@[simp] theorem issue_dt : (issue s).dt = s.dt := rfl
@[simp] theorem issue_st : (issue s).st = s.st := rfl
@[simp] theorem issue_mem : (issue s).mem = s.mem := rfl
@[simp] theorem issue_fb : (issue s).fb = s.fb := rfl
@[simp] theorem issue_keys : (issue s).keys = s.keys := rfl
@[simp] theorem issue_phase : (issue s).phase = s.phase := rfl
@[simp] theorem issue_waitreg : (issue s).waitreg = s.waitreg := rfl
@[simp] theorem issue_fcount : (issue s).fcount = s.fcount + 1 := rfl
@[simp] theorem issue_fault : (issue s).fault = s.fault := rfl
@[simp] theorem issue_frameMove : (issue s).frameMove = s.frameMove := rfl
@[simp] theorem issue_draws : (issue s).draws = s.draws := rfl
@[simp] theorem reg_issue (q : Reg) : reg (issue s) q = reg s q := rfl
@[simp] theorem readByte_issue (addr : Nat) : readByte (issue s) addr = readByte s addr := rfl

end Sys2Proof.Machine
end

