-- ==== Sys2Proof/Laws/Ops.lean ====
section
/-! SUPPORT. What each shared operation over registers, faults and the call stack can do, said once. -/

namespace Sys2Proof.Machine

/-! ## Registers -/

theorem reg_eq (s : State) (r : Reg) : reg s r = s.x[r] := rfl

@[simp] theorem reg_writeReg_same (r : Reg) (v : Byte) (s : State) : reg (writeReg r v s) r = v := by
  simp [reg]

theorem reg_writeReg_other {q r : Reg} (v : Byte) (s : State) (h : q ≠ r) :
    reg (writeReg r v s) q = reg s q := by
  have : r.val ≠ q.val := fun e => h (Fin.ext e.symm)
  simp [reg, this]

theorem reg_writeReg (q r : Reg) (v : Byte) (s : State) :
    reg (writeReg r v s) q = if q = r then v else reg s q := by
  by_cases h : q = r
  · simp [h]
  · rw [reg_writeReg_other v s h, if_neg h]

@[simp] theorem reg_writeFlag_vf (f : Bool) (s : State) : reg (writeFlag f s) vf = flagByte f :=
  reg_writeReg_same _ _ _

theorem reg_writeFlag_other {q : Reg} (f : Bool) (s : State) (h : q ≠ vf) : reg (writeFlag f s) q = reg s q :=
  reg_writeReg_other _ _ h

@[simp] theorem flagByte_toNat (f : Bool) : (flagByte f).toNat = if f then 1 else 0 := by cases f <;> rfl

theorem reg_writeRegs (bytes : List Byte) (s : State) (r : Reg) :
    reg (writeRegs bytes s) r = (bytes[r.val]?).getD (reg s r) := by
  simp [reg]

/-- The bytes a register store writes: V0..Vx. -/
theorem regsUpTo_length (s : State) (x : Reg) : (regsUpTo s x).length = regCount x := by
  have := x.isLt
  simp [regsUpTo, regCount]

theorem regsUpTo_getElem? (s : State) (x r : Reg) (h : r ≤ x) : (regsUpTo s x)[r.val]? = some (reg s r) := by
  have h' : r.val ≤ x.val := h
  simp [regsUpTo, regCount, reg, Nat.lt_succ_of_le h']

/-! ## Frames -/

/-- Digit `k` of the three that `LoadBcd` stores (R144). -/
theorem bcdDigits_getElem? (a : Byte) {k : Nat} (hk : k < 3) :
    ∃ d, (bcdDigits a)[k]? = some d ∧ d.toNat = a.toNat / 10 ^ (2 - k) % 10 := by
  have := a.isLt
  match k, hk with
  | 0, _ | 1, _ | 2, _ => exact ⟨_, rfl, by simp only [BitVec.toNat_ofNat]; norm_num; omega⟩

theorem onlyRegs_writeReg (r : Reg) (v : Byte) (s : State) : OnlyRegs [r] s (writeReg r v s) :=
  ⟨rfl, fun _ h => reg_writeReg_other v s (by simpa using h)⟩

/-- The result and flag writes of R95, by the priority that lets one win on VF. -/
theorem writeResultAndFlag_spec (r : Reg) (v : Byte) (f : Bool) (s : State) :
    WritesResultAndFlag r v.toNat (if f then 1 else 0) s (writeResultAndFlag r v f s) := by
  refine ⟨⟨?_, ?_⟩, ?_, ?_⟩
  · unfold writeResultAndFlag; split <;> rfl
  · intro q hq
    obtain ⟨h1, h2⟩ : q ≠ r ∧ q ≠ vf := by simpa using hq
    unfold writeResultAndFlag
    split
    · rw [reg_writeFlag_other _ _ h2, reg_writeReg_other _ _ h1]
    · rw [reg_writeReg_other _ _ h1, reg_writeFlag_other _ _ h2]
  · intro hr
    unfold writeResultAndFlag
    split
    · rw [reg_writeFlag_other _ _ hr, reg_writeFlag_vf, reg_writeReg_same, flagByte_toNat]
      exact ⟨rfl, rfl⟩
    · rw [reg_writeReg_same, reg_writeReg_other _ _ (Ne.symm hr), reg_writeFlag_vf, flagByte_toNat]
      exact ⟨rfl, rfl⟩
  · rintro rfl
    cases h : s.cfg.vfPriority
    · simp [writeResultAndFlag, h]
    · simp [writeResultAndFlag, h]

/-! ## Faults -/

/-- Taking a fault is what R189 says: nothing changes but the record and the phase. -/
theorem takeFault_halts (f : FaultRecord) (s : State) : Halts f s (takeFault f s) :=
  ⟨rfl, fun h => by simp [h], fun g h => by simp [h]⟩

/-- What an operation that may raise can lead to. -/
theorem attempt_cases {α : Type} {r : Except FaultRecord α} {s t : State} {k : α → Result}
    (h : attempt r s k = .next t) :
    (∃ a, r = .ok a ∧ k a = .next t) ∨ (∃ f, r = .error f ∧ t = takeFault f s) := by
  cases r with
  | ok a => exact .inl ⟨a, rfl, h⟩
  | error f => exact .inr ⟨f, rfl, by simpa [attempt, raise] using h.symm⟩

@[simp] theorem attempt_ok {α : Type} (a : α) (s : State) (k : α → Result) : attempt (.ok a) s k = k a := rfl

@[simp] theorem attempt_error {α : Type} (f : FaultRecord) (s : State) (k : α → Result) :
    attempt (.error f) s k = .next (takeFault f s) := rfl

/-! ## The call stack -/

theorem pushReturn_ok {s : State} (h : s.sp.toNat < s.cfg.stackDepth) :
    pushReturn s = .ok { s with stack := s.stack.set s.sp.toNat s.pc, sp := s.sp + 1 } := by
  simp [pushReturn, Nat.not_le.mpr h]

theorem pushReturn_full {s : State} (h : s.cfg.stackDepth ≤ s.sp.toNat) :
    pushReturn s = .error (.stackOverflow (s.pc - 2)) := by
  simp [pushReturn, h, instrAddr]

theorem pushReturn_cases (s : State) :
    (s.sp.toNat < s.cfg.stackDepth ∧
      pushReturn s = .ok { s with stack := s.stack.set s.sp.toNat s.pc, sp := s.sp + 1 }) ∨
    (s.cfg.stackDepth ≤ s.sp.toNat ∧ pushReturn s = .error (.stackOverflow (s.pc - 2))) := by
  rcases Nat.lt_or_ge s.sp.toNat s.cfg.stackDepth with h | h
  · exact .inl ⟨h, pushReturn_ok h⟩
  · exact .inr ⟨h, pushReturn_full h⟩

theorem popReturn_empty {s : State} (h : s.sp = 0) : popReturn s = .error (.stackUnderflow (s.pc - 2)) := by
  simp [popReturn, h, instrAddr]

theorem popReturn_cases (s : State) :
    (s.sp = 0 ∧ popReturn s = .error (.stackUnderflow (s.pc - 2))) ∨
    (∃ a, s.sp ≠ 0 ∧ s.stack[(s.sp - 1).toNat]? = some a ∧ popReturn s = .ok (a, { s with sp := s.sp - 1 })) ∨
    (s.sp ≠ 0 ∧ s.stack.length ≤ (s.sp - 1).toNat ∧
      popReturn s = .error (.indexOutOfRange (s.sp - 1) (s.pc - 2))) := by
  by_cases h : s.sp = 0
  · exact .inl ⟨h, popReturn_empty h⟩
  · cases hs : s.stack[(s.sp - 1).toNat]? with
    | some a => exact .inr (.inl ⟨a, h, rfl, by unfold popReturn; rw [if_neg h, hs]⟩)
    | none =>
      exact .inr (.inr ⟨h, by simpa using hs, by unfold popReturn; rw [if_neg h, hs]; rfl⟩)

/-- `SP - 1` of a stack that holds something. -/
theorem sp_pred_toNat {sp : Byte} (h : sp ≠ 0) : (sp - 1).toNat + 1 = sp.toNat := by
  have : sp.toNat ≠ 0 := fun e => h (BitVec.eq_of_toNat_eq e)
  have := sp.isLt
  rw [BitVec.toNat_sub]
  simp
  omega

/-- `SP + 1` does not wrap below the 8-bit limit. -/
theorem sp_succ_toNat {sp : Byte} (h : sp.toNat < 255) : (sp + 1).toNat = sp.toNat + 1 := by
  rw [BitVec.toNat_add]
  simp
  omega

end Sys2Proof.Machine
end

