-- ==== Sys2Proof/Laws/Memory.lean ====
section
/-! SUPPORT. The laws of memory: a read after a write, the canonical form under every operation, and the two primitives of spec/20_memory.md R50 and R51. -/

namespace Sys2Proof.Machine

variable {c : Config}

/-! ## One byte -/

theorem Memory.read_cons_same (a : Nat) (v : Byte) (rest : Memory) (h : ∀ p ∈ rest, a < p.1) :
    Memory.read c (Memory.cons c a v rest) a = v := by
  have unlisted : ∀ m : Memory, (∀ p ∈ m, a < p.1) → Memory.read c m a = Memory.initial c a := by
    intro m
    induction m with
    | nil => intro _; rfl
    | cons p m ih =>
      intro hm
      have hp : a < p.1 := hm p (by simp)
      have : p.1 ≠ a := by omega
      simp [Memory.read, this, ih fun q hq => hm q (by simp [hq])]
  unfold Memory.cons
  split
  · next hv => rw [unlisted rest h, hv]
  · simp [Memory.read]

theorem Memory.read_cons_other {a b : Nat} (v : Byte) (rest : Memory) (h : b ≠ a) :
    Memory.read c (Memory.cons c a v rest) b = Memory.read c rest b := by
  unfold Memory.cons
  split
  · rfl
  · simp [Memory.read, Ne.symm h]

/-- The addresses of a memory rise strictly. -/
abbrev Memory.Sorted (m : Memory) : Prop := m.Pairwise (fun p q => p.1 < q.1)

/-- A read of the byte just written gives the byte written. -/
theorem Memory.read_write_same {m : Memory} (hm : Memory.Sorted m) (a : Nat) (v : Byte) :
    Memory.read c (Memory.write c m a v) a = v := by
  induction m with
  | nil => exact Memory.read_cons_same a v [] (by simp)
  | cons p rest ih =>
    obtain ⟨hp, hrest⟩ := List.pairwise_cons.mp hm
    obtain ⟨b, u⟩ := p
    unfold Memory.write
    split
    · next hlt =>
      refine Memory.read_cons_same a v _ fun q hq => ?_
      rcases List.mem_cons.mp hq with rfl | hq
      · exact hlt
      · have : b < q.1 := hp q hq
        omega
    · split
      · next heq => subst heq; exact Memory.read_cons_same a v rest hp
      · next hne => simp [Memory.read, Ne.symm hne, ih hrest]

/-- A write leaves every other byte alone. -/
theorem Memory.read_write_other (m : Memory) {a b : Nat} (v : Byte) (h : b ≠ a) :
    Memory.read c (Memory.write c m a v) b = Memory.read c m b := by
  induction m with
  | nil => exact Memory.read_cons_other v [] h
  | cons p rest ih =>
    obtain ⟨k, u⟩ := p
    unfold Memory.write
    split
    · exact Memory.read_cons_other v _ h
    · split
      · next heq => subst heq; rw [Memory.read_cons_other v _ h]; simp [Memory.read, Ne.symm h]
      · by_cases hk : k = b
        · simp [Memory.read, hk]
        · simp [Memory.read, hk, ih]

/-- Every cell after a write is the written one or was there before. -/
theorem Memory.mem_write {m : Memory} {a : Nat} {v : Byte} {p : Host.Cell} (h : p ∈ Memory.write c m a v) :
    p = (a, v) ∧ v ≠ Memory.initial c a ∨ p ∈ m := by
  have cons_mem : ∀ rest : Memory, p ∈ Memory.cons c a v rest → p = (a, v) ∧ v ≠ Memory.initial c a ∨ p ∈ rest := by
    intro rest hp
    unfold Memory.cons at hp
    split at hp
    · exact .inr hp
    · next hv =>
      rcases List.mem_cons.mp hp with rfl | hp
      · exact .inl ⟨rfl, hv⟩
      · exact .inr hp
  induction m with
  | nil => exact cons_mem [] h
  | cons q rest ih =>
    obtain ⟨k, u⟩ := q
    unfold Memory.write at h
    split at h
    · exact cons_mem _ h
    · split at h
      · rcases cons_mem _ h with h | h
        · exact .inl h
        · exact .inr (by simp [h])
      · rcases List.mem_cons.mp h with rfl | h
        · exact .inr (by simp)
        · rcases ih h with h | h
          · exact .inl h
          · exact .inr (by simp [h])

theorem Memory.sorted_cons {a : Nat} (v : Byte) {rest : Memory} (hr : Memory.Sorted rest) (h : ∀ p ∈ rest, a < p.1) :
    Memory.Sorted (Memory.cons c a v rest) := by
  unfold Memory.cons
  split
  · exact hr
  · exact List.pairwise_cons.mpr ⟨h, hr⟩

theorem Memory.sorted_write {m : Memory} (hm : Memory.Sorted m) (a : Nat) (v : Byte) :
    Memory.Sorted (Memory.write c m a v) := by
  induction m with
  | nil => exact Memory.sorted_cons v List.Pairwise.nil (by simp)
  | cons p rest ih =>
    obtain ⟨hp, hrest⟩ := List.pairwise_cons.mp hm
    obtain ⟨b, u⟩ := p
    unfold Memory.write
    split
    · next hlt =>
      refine Memory.sorted_cons v hm fun q hq => ?_
      rcases List.mem_cons.mp hq with rfl | hq
      · exact hlt
      · have : b < q.1 := hp q hq
        omega
    · next hge =>
      split
      · next heq => subst heq; exact Memory.sorted_cons v hrest hp
      · next hne =>
        refine List.pairwise_cons.mpr ⟨fun q hq => ?_, ih hrest⟩
        rcases Memory.mem_write hq with ⟨rfl, -⟩ | hq
        · show b < a
          omega
        · exact hp q hq

/-- A write inside memory keeps the canonical form. -/
theorem Memory.write_wf {m : Memory} (hm : Memory.wf c m) {a : Nat} (ha : a < c.memBytes) (v : Byte) :
    Memory.wf c (Memory.write c m a v) := by
  refine ⟨Memory.sorted_write hm.1 a v, fun p hp => ?_⟩
  rcases Memory.mem_write hp with ⟨rfl, hv⟩ | hp
  · exact ⟨ha, hv⟩
  · exact hm.2 p hp

/-- The memory of a reset state, with nothing listed, is canonical. -/
theorem Memory.nil_wf : Memory.wf c [] := ⟨List.Pairwise.nil, by simp⟩

/-! ## Ranges -/

theorem Memory.readRange_length (m : Memory) (a n : Nat) : (Memory.readRange c m a n).length = n := by
  induction n generalizing a with
  | zero => rfl
  | succ n ih => simp [Memory.readRange, ih]

theorem Memory.readRange_getElem? (m : Memory) (a n k : Nat) :
    (Memory.readRange c m a n)[k]? = if k < n then some (Memory.read c m (a + k)) else none := by
  induction n generalizing a k with
  | zero => simp [Memory.readRange]
  | succ n ih =>
    cases k with
    | zero => simp [Memory.readRange]
    | succ k =>
      simp only [Memory.readRange, List.getElem?_cons_succ, ih, Nat.add_lt_add_iff_right]
      rw [show a + 1 + k = a + (k + 1) by omega]

theorem Memory.sorted_writeRange {m : Memory} (hm : Memory.Sorted m) (a : Nat) (bytes : List Byte) :
    Memory.Sorted (Memory.writeRange c m a bytes) := by
  induction bytes generalizing m a with
  | nil => exact hm
  | cons b rest ih => exact ih (Memory.sorted_write hm a b) (a + 1)

theorem Memory.read_writeRange_outside (m : Memory) {a b : Nat} (bytes : List Byte) (h : b < a ∨ a + bytes.length ≤ b) :
    Memory.read c (Memory.writeRange c m a bytes) b = Memory.read c m b := by
  induction bytes generalizing m a with
  | nil => rfl
  | cons v rest ih =>
    simp only [List.length_cons] at h
    rw [Memory.writeRange, ih _ (by omega), Memory.read_write_other m v (by omega)]

theorem Memory.read_writeRange_inside {m : Memory} (hm : Memory.Sorted m) (a : Nat) (bytes : List Byte) {k : Nat} {b : Byte}
    (h : bytes[k]? = some b) : Memory.read c (Memory.writeRange c m a bytes) (a + k) = b := by
  induction bytes generalizing m a k with
  | nil => simp at h
  | cons v rest ih =>
    cases k with
    | zero =>
      rw [List.getElem?_cons_zero, Option.some.injEq] at h
      subst h
      rw [Memory.writeRange, Memory.read_writeRange_outside _ _ (by omega)]
      exact Memory.read_write_same hm a v
    | succ k =>
      rw [List.getElem?_cons_succ] at h
      rw [Memory.writeRange, show a + (k + 1) = a + 1 + k by omega]
      exact ih (Memory.sorted_write hm a v) (a + 1) h

/-- A write of a range inside memory keeps the canonical form. -/
theorem Memory.writeRange_wf {m : Memory} (hm : Memory.wf c m) {a : Nat} {bytes : List Byte}
    (h : a + bytes.length ≤ c.memBytes) : Memory.wf c (Memory.writeRange c m a bytes) := by
  induction bytes generalizing m a with
  | nil => exact hm
  | cons b rest ih =>
    simp only [List.length_cons] at h
    exact ih (Memory.write_wf hm (by omega) b) (by omega)

/-! ## The two primitives -/

theorem memRead_ok {s : State} {addr n : Nat} (h : addr + n ≤ s.cfg.memBytes) :
    memRead s addr n = .ok (Memory.readRange s.cfg s.mem addr n) := by
  simp [memRead, Nat.not_lt.mpr h]

theorem memRead_error {s : State} {addr n : Nat} (h : s.cfg.memBytes < addr + n) :
    memRead s addr n = .error (.outOfBounds addr n) := by
  simp [memRead, h]

theorem memWrite_ok {s : State} {addr : Nat} {bytes : List Byte} (h : addr + bytes.length ≤ s.cfg.memBytes) :
    memWrite s addr bytes = .ok { s with mem := Memory.writeRange s.cfg s.mem addr bytes } := by
  simp [memWrite, Nat.not_lt.mpr h]

theorem memWrite_error {s : State} {addr : Nat} {bytes : List Byte} (h : s.cfg.memBytes < addr + bytes.length) :
    memWrite s addr bytes = .error (.outOfBounds addr bytes.length) := by
  simp [memWrite, h]

/-- Everything `MemRead` can do. -/
theorem memRead_cases (s : State) (addr n : Nat) :
    (addr + n ≤ s.cfg.memBytes ∧ memRead s addr n = .ok (Memory.readRange s.cfg s.mem addr n)) ∨
    (s.cfg.memBytes < addr + n ∧ memRead s addr n = .error (.outOfBounds addr n)) := by
  rcases Nat.lt_or_ge s.cfg.memBytes (addr + n) with h | h
  · exact .inr ⟨h, memRead_error h⟩
  · exact .inl ⟨h, memRead_ok h⟩

/-- Everything `MemWrite` can do. -/
theorem memWrite_cases (s : State) (addr : Nat) (bytes : List Byte) :
    (addr + bytes.length ≤ s.cfg.memBytes ∧
      memWrite s addr bytes = .ok { s with mem := Memory.writeRange s.cfg s.mem addr bytes }) ∨
    (s.cfg.memBytes < addr + bytes.length ∧ memWrite s addr bytes = .error (.outOfBounds addr bytes.length)) := by
  rcases Nat.lt_or_ge s.cfg.memBytes (addr + bytes.length) with h | h
  · exact .inr ⟨h, memWrite_error h⟩
  · exact .inl ⟨h, memWrite_ok h⟩

/-- A store changes the bytes it stores to, and no other. -/
theorem writeRange_onlyBytes (s : State) (addr : Nat) (bytes : List Byte) :
    OnlyBytes addr bytes.length s { s with mem := Memory.writeRange s.cfg s.mem addr bytes } :=
  ⟨rfl, fun _ h => Memory.read_writeRange_outside s.mem bytes h⟩

end Sys2Proof.Machine
end

