-- ==== Sys2Proof/Laws/Step.lean ====
section
/-! SUPPORT. What the fetch, an instruction step and a step of the machine can do, said once. -/

namespace Sys2Proof.Machine

/-! ## Fetch and the instruction step -/

theorem fetchWord_ok {s : State} (h : s.pc.toNat + 2 ≤ s.cfg.memBytes) :
    fetchWord s = .ok (wordOfBytes (readByte s s.pc.toNat) (readByte s (s.pc.toNat + 1))) := by
  rw [fetchWord, memRead_ok h]
  rfl

theorem fetchWord_error {s : State} (h : s.cfg.memBytes < s.pc.toNat + 2) :
    fetchWord s = .error (.outOfBounds s.pc.toNat 2) := by
  rw [fetchWord, memRead_error h]
  rfl

/-- The word at `PC`. -/
abbrev wordAtPc (s : State) : Word := wordOfBytes (readByte s s.pc.toNat) (readByte s (s.pc.toNat + 1))

theorem instructionStep_ok {s : State} (h : s.pc.toNat + 2 ≤ s.cfg.memBytes) {i : Instr}
    (hi : decodeWord (wordAtPc s) = .ok i) : instructionStep s = exec i (advancePc (issue s)) := by
  rw [instructionStep, fetchWord_ok h, attempt_ok, decodeAndExecute, hi]

theorem instructionStep_illegal {s : State} (h : s.pc.toNat + 2 ≤ s.cfg.memBytes) {e : DecodeError}
    (he : decodeWord (wordAtPc s) = .error e) :
    instructionStep s = .next (takeFault (.decodeFailure (wordAtPc s) s.pc) (advancePc (issue s))) := by
  rw [instructionStep, fetchWord_ok h, attempt_ok, decodeAndExecute, he]
  rfl

theorem instructionStep_outside {s : State} (h : s.cfg.memBytes < s.pc.toNat + 2) :
    instructionStep s = .next (takeFault (.outOfBounds s.pc.toNat 2) (issue s)) := by
  rw [instructionStep, fetchWord_error h, attempt_error]

/-- Everything an instruction step can do: run the decoded instruction, or take the fault of the fetch or of the decode. -/
theorem instructionStep_cases (s : State) :
    (s.pc.toNat + 2 ≤ s.cfg.memBytes ∧
      ∃ i, decodeWord (wordAtPc s) = .ok i ∧ instructionStep s = exec i (advancePc (issue s))) ∨
    (s.pc.toNat + 2 ≤ s.cfg.memBytes ∧
      instructionStep s = .next (takeFault (.decodeFailure (wordAtPc s) s.pc) (advancePc (issue s)))) ∨
    (s.cfg.memBytes < s.pc.toNat + 2 ∧
      instructionStep s = .next (takeFault (.outOfBounds s.pc.toNat 2) (issue s))) := by
  rcases Nat.lt_or_ge s.cfg.memBytes (s.pc.toNat + 2) with h | h
  · exact .inr (.inr ⟨h, instructionStep_outside h⟩)
  · cases hd : decodeWord (wordAtPc s) with
    | ok i => exact .inl ⟨h, i, rfl, instructionStep_ok h hd⟩
    | error e => exact .inr (.inl ⟨h, instructionStep_illegal h hd⟩)

/-! ## The step -/

theorem step_run {s : State} (hc : s.cfg.wf) (hp : s.phase = .run) (hf : s.fcount < s.cfg.ipf) :
    step s = instructionStep s := by
  simp [step, hc, hp, hf]

theorem step_frameEnd {s : State} (hc : s.cfg.wf) (hp : s.phase = .run) (hf : s.cfg.ipf ≤ s.fcount) :
    step s = .next (frameEndStep s) := by
  simp [step, hc, hp, Nat.not_lt.mpr hf]

theorem step_waitKey {s : State} (hc : s.cfg.wf) (hp : s.phase = .waitKey) : step s = .next (waitStep s) := by
  simp [step, hc, hp]

theorem step_halted {s : State} (hc : s.cfg.wf) (hp : s.phase = .halted) : step s = .fault (.halted s.fault) := by
  simp [step, hc, hp]

theorem step_unsupported {s : State} (hc : ¬ s.cfg.wf) : step s = .refused .unsupportedConfiguration := by
  simp [step, hc]

/-- Everything a step that answers a next state can be: an instruction of the frame, a move at the frame's end, or a move of the
host on a waiting machine. -/
theorem step_cases {s t : State} (h : step s = .next t) :
    s.cfg.wf ∧
      ((s.phase = .run ∧ s.fcount < s.cfg.ipf ∧ instructionStep s = .next t) ∨
       (s.phase = .run ∧ s.cfg.ipf ≤ s.fcount ∧ t = frameEndStep s) ∨
       (s.phase = .waitKey ∧ t = waitStep s)) := by
  by_cases hc : s.cfg.wf
  · refine ⟨hc, ?_⟩
    cases hp : s.phase with
    | run =>
      rcases Nat.lt_or_ge s.fcount s.cfg.ipf with hf | hf
      · exact .inl ⟨rfl, hf, (step_run hc hp hf).symm.trans h⟩
      · rw [step_frameEnd hc hp hf] at h
        exact .inr (.inl ⟨rfl, hf, by cases h; rfl⟩)
    | waitKey =>
      rw [step_waitKey hc hp] at h
      exact .inr (.inr ⟨rfl, by cases h; rfl⟩)
    | halted =>
      rw [step_halted hc hp] at h
      cases h
  · rw [step_unsupported hc] at h
    cases h

/-- A run of one more step is a step and then a run. -/
theorem runSteps_succ {k : Nat} {s t : State} (h : runSteps (k + 1) s = .next t) :
    ∃ u, step s = .next u ∧ runSteps k u = .next t := by
  unfold runSteps at h
  cases hs : step s with
  | next u => exact ⟨u, rfl, by simpa only [hs] using h⟩
  | fault r => simp [hs] at h
  | refused r => simp [hs] at h

/-- What the end of a frame can do: the tick, the render or the poll, in that order. -/
theorem frameEndStep_cases (s : State) :
    (s.frameMove = .tick ∧
      frameEndStep s = { s with dt := countDown s.dt, st := countDown s.st, frameMove := .render }) ∨
    (s.frameMove = .render ∧ frameEndStep s = { s with frameMove := .poll }) ∨
    (s.frameMove = .poll ∧ frameEndStep s =
      { s with keys := Config.freePolledKeys s.draws, fcount := 0, frameMove := .tick, draws := s.draws + 1 }) := by
  cases h : s.frameMove with
  | tick => exact .inl ⟨rfl, by simp only [frameEndStep, h]; rfl⟩
  | render => exact .inr (.inl ⟨rfl, by simp only [frameEndStep, h]⟩)
  | poll => exact .inr (.inr ⟨rfl, by simp only [frameEndStep, h]; rfl⟩)

/-- What a waiting machine can do: have its keys polled, or receive a key. -/
theorem waitStep_cases (s : State) :
    (∃ newKeys, waitStep s = countDraw (pollKeys newKeys s)) ∨ (∃ k, waitStep s = countDraw (keyPress k s)) := by
  cases h : Config.freeWaitEvent s.draws with
  | poll newKeys => exact .inl ⟨newKeys, by simp [waitStep, h, waitMove]⟩
  | press k => exact .inr ⟨k, by simp [waitStep, h, waitMove]⟩

theorem countDown_toNat (b : Byte) : (countDown b).toNat = b.toNat - 1 := by
  unfold countDown
  split
  · next h => subst h; rfl
  · next h =>
    have : b.toNat ≠ 0 := fun e => h (BitVec.eq_of_toNat_eq e)
    have := b.isLt
    rw [BitVec.toNat_sub]
    simp
    omega

end Sys2Proof.Machine
end

