-- ==== Sys2Proof/Laws/Exec.lean ====
section
/-! SUPPORT. What each instruction that may fault can do, said once, and from these what any instruction does to the phase and the fault record. The other instructions' meanings are one named update each (Laws/State.lean). -/

namespace Sys2Proof.Machine

/-- `Ret`: an empty stack, a return, or (in states no run reaches) an `SP` outside the stack. -/
theorem execRet_cases (s : State) :
    (s.sp = 0 ∧ execRet s = .next (takeFault (.stackUnderflow (s.pc - 2)) s)) ∨
    (∃ a, s.sp ≠ 0 ∧ s.stack[(s.sp - 1).toNat]? = some a ∧ execRet s = .next { s with pc := a, sp := s.sp - 1 }) ∨
    (s.sp ≠ 0 ∧ s.stack.length ≤ (s.sp - 1).toNat ∧
      execRet s = .next (takeFault (.indexOutOfRange (s.sp - 1) (s.pc - 2)) s)) := by
  rcases popReturn_cases s with ⟨h, e⟩ | ⟨a, h, ha, e⟩ | ⟨h, hl, e⟩
  · exact .inl ⟨h, by rw [execRet, e]; rfl⟩
  · exact .inr (.inl ⟨a, h, ha, by rw [execRet, e]; rfl⟩)
  · exact .inr (.inr ⟨h, hl, by rw [execRet, e]; rfl⟩)

/-- `Call`: a push and a jump, or a full stack. -/
theorem execCall_cases (nnn : Addr12) (s : State) :
    (s.sp.toNat < s.cfg.stackDepth ∧ execCall nnn s =
      .next { s with pc := zextAddr nnn, stack := s.stack.set s.sp.toNat s.pc, sp := s.sp + 1 }) ∨
    (s.cfg.stackDepth ≤ s.sp.toNat ∧ execCall nnn s = .next (takeFault (.stackOverflow (s.pc - 2)) s)) := by
  rcases pushReturn_cases s with ⟨h, e⟩ | ⟨h, e⟩
  · exact .inl ⟨h, by rw [execCall, e]; rfl⟩
  · exact .inr ⟨h, by rw [execCall, e]; rfl⟩

/-- The state in which `Draw` leaves a machine whose sprite is `rows`. -/
def drawn (x y : Reg) (rows : List Byte) (s : State) : State :=
  writeFlag (drawSprite (reg s x).toNat (reg s y).toNat rows s.fb).coll
    { s with fb := (drawSprite (reg s x).toNat (reg s y).toNat rows s.fb).fb }

/-- `Draw`: the sprite drawn, or a sprite past the end of memory. -/
theorem execDraw_cases (x y : Reg) (n : Fin 16) (s : State) :
    (indexAddr s + n.val ≤ s.cfg.memBytes ∧ execDraw x y n s =
      .next (drawn x y (Memory.readRange s.cfg s.mem (indexAddr s) n.val) s)) ∨
    (s.cfg.memBytes < indexAddr s + n.val ∧
      execDraw x y n s = .next (takeFault (.outOfBounds (indexAddr s) n.val) s)) := by
  rcases memRead_cases s (indexAddr s) n.val with ⟨h, e⟩ | ⟨h, e⟩
  · exact .inl ⟨h, by rw [execDraw, e]; rfl⟩
  · exact .inr ⟨h, by rw [execDraw, e]; rfl⟩

/-- `LoadBcd`: three digits stored, or a range past the end of memory. -/
theorem execLoadBcd_cases (x : Reg) (s : State) :
    (indexAddr s + 3 ≤ s.cfg.memBytes ∧ execLoadBcd x s =
      .next { s with mem := Memory.writeRange s.cfg s.mem (indexAddr s) (bcdDigits (reg s x)) }) ∨
    (s.cfg.memBytes < indexAddr s + 3 ∧
      execLoadBcd x s = .next (takeFault (.outOfBounds (indexAddr s) 3) s)) := by
  rcases memWrite_cases s (indexAddr s) (bcdDigits (reg s x)) with ⟨h, e⟩ | ⟨h, e⟩
  · exact .inl ⟨h, by rw [execLoadBcd, e]; rfl⟩
  · exact .inr ⟨h, by rw [execLoadBcd, e]; rfl⟩

/-- `StoreRegisters`: V0..Vx stored, or a range past the end of memory. -/
theorem execStoreRegisters_cases (x : Reg) (s : State) :
    (indexAddr s + regCount x ≤ s.cfg.memBytes ∧ execStoreRegisters x s =
      .next { s with mem := Memory.writeRange s.cfg s.mem (indexAddr s) (regsUpTo s x) }) ∨
    (s.cfg.memBytes < indexAddr s + regCount x ∧
      execStoreRegisters x s = .next (takeFault (.outOfBounds (indexAddr s) (regCount x)) s)) := by
  rcases memWrite_cases s (indexAddr s) (regsUpTo s x) with ⟨h, e⟩ | ⟨h, e⟩ <;>
    rw [regsUpTo_length] at h
  · exact .inl ⟨h, by rw [execStoreRegisters, e]; rfl⟩
  · exact .inr ⟨h, by rw [execStoreRegisters, e, regsUpTo_length]; rfl⟩

/-- `LoadRegisters`: V0..Vx loaded, or a range past the end of memory. -/
theorem execLoadRegisters_cases (x : Reg) (s : State) :
    (indexAddr s + regCount x ≤ s.cfg.memBytes ∧ execLoadRegisters x s =
      .next (writeRegs (Memory.readRange s.cfg s.mem (indexAddr s) (regCount x)) s)) ∨
    (s.cfg.memBytes < indexAddr s + regCount x ∧
      execLoadRegisters x s = .next (takeFault (.outOfBounds (indexAddr s) (regCount x)) s)) := by
  rcases memRead_cases s (indexAddr s) (regCount x) with ⟨h, e⟩ | ⟨h, e⟩
  · exact .inl ⟨h, by rw [execLoadRegisters, e]; rfl⟩
  · exact .inr ⟨h, by rw [execLoadRegisters, e]; rfl⟩

/-- The key skips: a skip on the sampled key, or a number that names no key. -/
theorem skipOnKey_cases (down : Bool) (x : Reg) (s : State) :
    (∃ k : Fin 16, (reg s x).toNat = k.val ∧ skipOnKey down x s = .next (skipIf (s.keys[k] == down) s)) ∨
    (0xF < (reg s x).toNat ∧ skipOnKey down x s = .next (takeFault (.indexOutOfRange (reg s x) (s.pc - 2)) s)) := by
  by_cases h : (reg s x).toNat < 16
  · exact .inl ⟨⟨_, h⟩, rfl, by simp [skipOnKey, keyIndex, h]⟩
  · exact .inr ⟨by omega, by simp [skipOnKey, keyIndex, h, raise, instrAddr]⟩

/-- The fault `f` is one that instruction `i` raises in state `s` (R180). -/
def Raises (i : Instr) (s : State) (f : FaultRecord) : Prop :=
  (i = .ret ∧ s.sp = 0 ∧ f = .stackUnderflow (s.pc - 2)) ∨
  (i = .ret ∧ s.sp ≠ 0 ∧ s.stack.length ≤ (s.sp - 1).toNat ∧ f = .indexOutOfRange (s.sp - 1) (s.pc - 2)) ∨
  (∃ nnn, i = .call nnn ∧ s.cfg.stackDepth ≤ s.sp.toNat ∧ f = .stackOverflow (s.pc - 2)) ∨
  (∃ x y n, i = .draw x y n ∧ f = .outOfBounds (indexAddr s) n.val) ∨
  (∃ x, (i = .skipKey x ∨ i = .skipNotKey x) ∧ f = .indexOutOfRange (reg s x) (s.pc - 2)) ∨
  (∃ x, i = .loadBcd x ∧ f = .outOfBounds (indexAddr s) 3) ∨
  (∃ x, (i = .storeRegisters x ∨ i = .loadRegisters x) ∧ f = .outOfBounds (indexAddr s) (regCount x))

/-- What any instruction does to the phase and the fault record: it takes a fault, or leaves the record alone and makes at most
the move to `WAIT_KEY`. -/
theorem exec_cases {i : Instr} {s t : State} (h : exec i s = .next t) :
    (∃ f, Raises i s f ∧ t = takeFault f s) ∨
    (t.fault = s.fault ∧ (t.phase = s.phase ∨ (∃ x, i = .loadKey x) ∧ t.phase = .waitKey)) := by
  cases i with
  | ret =>
    rcases execRet_cases s with ⟨h0, e⟩ | ⟨a, h0, ha, e⟩ | ⟨h0, hl, e⟩ <;> cases e.symm.trans h
    · exact .inl ⟨_, .inl ⟨rfl, h0, rfl⟩, rfl⟩
    · exact .inr ⟨rfl, .inl rfl⟩
    · exact .inl ⟨_, .inr (.inl ⟨rfl, h0, hl, rfl⟩), rfl⟩
  | call nnn =>
    rcases execCall_cases nnn s with ⟨h0, e⟩ | ⟨h0, e⟩ <;> cases e.symm.trans h
    · exact .inr ⟨rfl, .inl rfl⟩
    · exact .inl ⟨_, .inr (.inr (.inl ⟨nnn, rfl, h0, rfl⟩)), rfl⟩
  | draw x y n =>
    rcases execDraw_cases x y n s with ⟨h0, e⟩ | ⟨h0, e⟩ <;> cases e.symm.trans h
    · exact .inr ⟨rfl, .inl rfl⟩
    · exact .inl ⟨_, .inr (.inr (.inr (.inl ⟨x, y, n, rfl, rfl⟩))), rfl⟩
  | skipKey x =>
    rcases skipOnKey_cases true x s with ⟨k, hk, e⟩ | ⟨h0, e⟩ <;> cases e.symm.trans h
    · exact .inr ⟨by simp, .inl (by simp)⟩
    · exact .inl ⟨_, .inr (.inr (.inr (.inr (.inl ⟨x, .inl rfl, rfl⟩)))), rfl⟩
  | skipNotKey x =>
    rcases skipOnKey_cases false x s with ⟨k, hk, e⟩ | ⟨h0, e⟩ <;> cases e.symm.trans h
    · exact .inr ⟨by simp, .inl (by simp)⟩
    · exact .inl ⟨_, .inr (.inr (.inr (.inr (.inl ⟨x, .inr rfl, rfl⟩)))), rfl⟩
  | loadBcd x =>
    rcases execLoadBcd_cases x s with ⟨h0, e⟩ | ⟨h0, e⟩ <;> cases e.symm.trans h
    · exact .inr ⟨rfl, .inl rfl⟩
    · exact .inl ⟨_, .inr (.inr (.inr (.inr (.inr (.inl ⟨x, rfl, rfl⟩))))), rfl⟩
  | storeRegisters x =>
    rcases execStoreRegisters_cases x s with ⟨h0, e⟩ | ⟨h0, e⟩ <;> cases e.symm.trans h
    · exact .inr ⟨rfl, .inl rfl⟩
    · exact .inl ⟨_, .inr (.inr (.inr (.inr (.inr (.inr ⟨x, .inl rfl, rfl⟩))))), rfl⟩
  | loadRegisters x =>
    rcases execLoadRegisters_cases x s with ⟨h0, e⟩ | ⟨h0, e⟩ <;> cases e.symm.trans h
    · exact .inr ⟨by simp, .inl (by simp)⟩
    · exact .inl ⟨_, .inr (.inr (.inr (.inr (.inr (.inr ⟨x, .inr rfl, rfl⟩))))), rfl⟩
  | loadKey x => cases h; exact .inr ⟨rfl, .inr ⟨⟨x, rfl⟩, rfl⟩⟩
  | cls | sys | jmp | jmpV0 | loadI | loadFont | addI | loadImm | addImm | loadReg | or | and | xor
  | rand | loadDelay | setDelay | setSound => cases h; exact .inr ⟨rfl, .inl rfl⟩
  | addReg | subVx | shiftRight | subRev | shiftLeft | skipEqImm | skipNeImm | skipEqReg | skipNeReg =>
    cases h; exact .inr ⟨by simp, .inl (by simp)⟩

end Sys2Proof.Machine
end

