-- ==== Sys2Proof/Laws/Framebuffer.lean ====
section
/-! SUPPORT. The laws of the sprite composer: one pixel, then a list of sprite bits that fall on distinct pixels (spec/44_display.md R152). -/

namespace Sys2Proof.Machine

/-! ## One pixel -/

/-- A pixel's byte and bit name the pixel. -/
theorem pixelByte_inj {r r' : Fin 32} {c c' : Fin 64} (h : pixelByte r c = pixelByte r' c')
    (hb : 7 - c.val % 8 = 7 - c'.val % 8) : r = r' ∧ c = c' := by
  have h' : 8 * r.val + c.val / 8 = 8 * r'.val + c'.val / 8 := congrArg Fin.val h
  exact ⟨Fin.ext (by omega), Fin.ext (by omega)⟩

theorem pixel_flipPixel_same (fb : Framebuffer) (r : Fin 32) (c : Fin 64) :
    pixel (flipPixel fb r c) r c = !pixel fb r c := by
  have : 7 - c.val % 8 < 8 := by omega
  simp [pixel, flipPixel, this]

theorem pixel_flipPixel_other (fb : Framebuffer) {r r' : Fin 32} {c c' : Fin 64} (h : ¬ (r' = r ∧ c' = c)) :
    pixel (flipPixel fb r c) r' c' = pixel fb r' c' := by
  unfold pixel flipPixel
  by_cases hk : pixelByte r c = pixelByte r' c'
  · have hb : ¬ 7 - c.val % 8 = 7 - c'.val % 8 := fun e =>
      h ⟨(pixelByte_inj hk e).1.symm, (pixelByte_inj hk e).2.symm⟩
    simp only [← hk]
    simp [hb]
  · have : (pixelByte r c).val ≠ (pixelByte r' c').val := fun e => hk (Fin.ext e)
    simp [this]

theorem pixel_flipPixel (fb : Framebuffer) (r r' : Fin 32) (c c' : Fin 64) :
    pixel (flipPixel fb r c) r' c' = (pixel fb r' c' != decide (r' = r ∧ c' = c)) := by
  by_cases h : r' = r ∧ c' = c
  · obtain ⟨rfl, rfl⟩ := h
    simp [pixel_flipPixel_same]
  · simp [pixel_flipPixel_other fb h, h]

/-- A framebuffer is its pixels. -/
theorem framebuffer_ext {fb fb' : Framebuffer} (h : ∀ r c, pixel fb r c = pixel fb' r c) : fb = fb' := by
  apply Vector.ext
  intro k hk
  apply BitVec.eq_of_getLsbD_eq
  intro b hb
  have e := h ⟨k / 8, by omega⟩ ⟨8 * (k % 8) + (7 - b), by omega⟩
  have hbyte : pixelByte ⟨k / 8, by omega⟩ ⟨8 * (k % 8) + (7 - b), by omega⟩ = ⟨k, hk⟩ :=
    Fin.ext (show 8 * (k / 8) + (8 * (k % 8) + (7 - b)) / 8 = k by omega)
  have hbit : 7 - (8 * (k % 8) + (7 - b)) % 8 = b := by omega
  simpa only [pixel, hbyte, hbit, Fin.getElem_fin] using e

/-! ## A list of sprite bits -/

/-- A sprite bit with the pixel it lands on. -/
structure SpriteBit where
  set : Bool
  row : Fin 32
  col : Fin 64

/-- The composer on a list of sprite bits. -/
def drawBits (bits : List SpriteBit) (d : Canvas) : Canvas :=
  bits.foldl (fun d s => drawPixel s.set s.row s.col d) d

/-- A set bit of the list lands on the pixel. -/
def hits (bits : List SpriteBit) (r : Fin 32) (c : Fin 64) : Bool :=
  bits.any fun s => s.set && decide (s.row = r ∧ s.col = c)

/-- No two bits of the list land on one pixel. -/
abbrev Apart (bits : List SpriteBit) : Prop := bits.Pairwise fun s s' => ¬ (s.row = s'.row ∧ s.col = s'.col)

theorem hits_of_apart {s : SpriteBit} {bits : List SpriteBit} (h : Apart (s :: bits)) : hits bits s.row s.col = false := by
  rw [hits, List.any_eq_false]
  intro s' hs'
  have := (List.pairwise_cons.mp h).1 s' hs'
  simp only [Bool.and_eq_true, decide_eq_true_eq, not_and]
  intro _ e1 e2
  exact this ⟨e1.symm, e2.symm⟩

/-- Each pixel is inverted exactly when a set bit lands on it. -/
theorem pixel_drawBits {bits : List SpriteBit} (h : Apart bits) (d : Canvas) (r : Fin 32) (c : Fin 64) :
    pixel (drawBits bits d).fb r c = (pixel d.fb r c != hits bits r c) := by
  induction bits generalizing d with
  | nil => simp [drawBits, hits]
  | cons s rest ih =>
    rw [show drawBits (s :: rest) d = drawBits rest (drawPixel s.set s.row s.col d) from rfl,
      ih (List.pairwise_cons.mp h).2]
    have hs := hits_of_apart h
    obtain ⟨b, row, col⟩ := s
    cases b
    · simp [drawPixel, hits]
    · rw [show hits (⟨true, row, col⟩ :: rest) r c = (decide (row = r ∧ col = c) || hits rest r c) by simp [hits]]
      simp only [drawPixel, if_true, pixel_flipPixel]
      by_cases e : row = r ∧ col = c
      · obtain ⟨rfl, rfl⟩ := e
        simp only at hs
        simp [hs]
      · have e' : ¬ (r = row ∧ c = col) := fun x => e ⟨x.1.symm, x.2.symm⟩
        simp [e, e']

/-- There is a collision exactly when there was one before or a set bit lands on a lit pixel. -/
theorem coll_drawBits {bits : List SpriteBit} (h : Apart bits) (d : Canvas) :
    (drawBits bits d).coll = (d.coll || bits.any fun s => s.set && pixel d.fb s.row s.col) := by
  induction bits generalizing d with
  | nil => simp [drawBits]
  | cons s rest ih =>
    rw [show drawBits (s :: rest) d = drawBits rest (drawPixel s.set s.row s.col d) from rfl,
      ih (List.pairwise_cons.mp h).2]
    have hs : ∀ s' ∈ rest, ¬ (s'.row = s.row ∧ s'.col = s.col) := fun s' hs' e =>
      (List.pairwise_cons.mp h).1 s' hs' ⟨e.1.symm, e.2.symm⟩
    obtain ⟨b, row, col⟩ := s
    cases b
    · simp [drawPixel]
    · have same : ∀ s' ∈ rest, pixel (flipPixel d.fb row col) s'.row s'.col = pixel d.fb s'.row s'.col :=
        fun s' hs' => pixel_flipPixel_other d.fb (hs s' hs')
      have any_same : (rest.any fun s => s.set && pixel (flipPixel d.fb row col) s.row s.col)
          = rest.any fun s => s.set && pixel d.fb s.row s.col := by
        rw [Bool.eq_iff_iff, List.any_eq_true, List.any_eq_true]
        constructor
        · rintro ⟨s', hs', e⟩
          exact ⟨s', hs', by rwa [same s' hs'] at e⟩
        · rintro ⟨s', hs', e⟩
          exact ⟨s', hs', by rwa [same s' hs']⟩
      simp [drawPixel, any_same, Bool.or_assoc]

/-! ## A sprite as its list of bits -/

/-- The bits of one sprite row. -/
def rowBits (x0 : Nat) (row : Fin 32) (b : Byte) : List SpriteBit :=
  (List.range 8).map fun j => ⟨b.getLsbD (7 - j), row, wrapCol x0 j⟩

/-- The bits of a sprite, from sprite row `r` on. -/
def spriteBits (x0 y0 r : Nat) (rows : List Byte) : List SpriteBit :=
  match rows with
  | [] => []
  | b :: rest => rowBits x0 (wrapRow y0 r) b ++ spriteBits x0 y0 (r + 1) rest

theorem drawRow_eq (x0 : Nat) (row : Fin 32) (b : Byte) (d : Canvas) :
    drawRow x0 row b d = drawBits (rowBits x0 row b) d := by
  simp [drawRow, drawBits, rowBits, List.foldl_map]

theorem drawRows_eq (x0 y0 r : Nat) (rows : List Byte) (d : Canvas) :
    drawRows x0 y0 r rows d = drawBits (spriteBits x0 y0 r rows) d := by
  induction rows generalizing r d with
  | nil => rfl
  | cons b rest ih =>
    rw [drawRows, ih, drawRow_eq, spriteBits, drawBits, drawBits, drawBits, List.foldl_append]

theorem drawSprite_eq (x0 y0 : Nat) (rows : List Byte) (fb : Framebuffer) :
    drawSprite x0 y0 rows fb = drawBits (spriteBits x0 y0 0 rows) { fb := fb, coll := false } :=
  drawRows_eq x0 y0 0 rows _

theorem wrapCol_val (x0 j : Nat) : (wrapCol x0 j).val = (x0 + j) % 64 := rfl

theorem wrapRow_val (y0 r : Nat) : (wrapRow y0 r).val = (y0 + r) % 32 := rfl

theorem mem_rowBits {x0 : Nat} {row : Fin 32} {b : Byte} {s : SpriteBit} :
    s ∈ rowBits x0 row b ↔ ∃ j < 8, s = ⟨b.getLsbD (7 - j), row, wrapCol x0 j⟩ := by
  simp only [rowBits, List.mem_map, List.mem_range]
  exact ⟨fun ⟨j, h, e⟩ => ⟨j, h, e.symm⟩, fun ⟨j, h, e⟩ => ⟨j, h, e.symm⟩⟩

theorem mem_spriteBits {x0 y0 r : Nat} {rows : List Byte} {s : SpriteBit} :
    s ∈ spriteBits x0 y0 r rows ↔
      ∃ k b, rows[k]? = some b ∧ ∃ j < 8, s = ⟨b.getLsbD (7 - j), wrapRow y0 (r + k), wrapCol x0 j⟩ := by
  induction rows generalizing r with
  | nil => simp [spriteBits]
  | cons b rest ih =>
    rw [spriteBits, List.mem_append, mem_rowBits, ih]
    constructor
    · rintro (⟨j, hj, rfl⟩ | ⟨k, b', hk, j, hj, rfl⟩)
      · exact ⟨0, b, rfl, j, hj, rfl⟩
      · exact ⟨k + 1, b', hk, j, hj, by rw [show r + (k + 1) = r + 1 + k by omega]⟩
    · rintro ⟨k, b', hk, j, hj, rfl⟩
      cases k with
      | zero =>
        rw [List.getElem?_cons_zero, Option.some.injEq] at hk
        subst hk
        exact .inl ⟨j, hj, rfl⟩
      | succ k => exact .inr ⟨k, b', hk, j, hj, by rw [show r + (k + 1) = r + 1 + k by omega]⟩

/-- The eight pixels of a row never overlap one another: 8 ≤ 64 (R152). -/
theorem rowBits_apart (x0 : Nat) (row : Fin 32) (b : Byte) : Apart (rowBits x0 row b) := by
  unfold Apart rowBits
  rw [List.pairwise_map]
  refine List.Pairwise.imp_of_mem ?_ List.pairwise_lt_range
  intro j j' hj hj' hlt e
  have hj' := List.mem_range.mp hj'
  have e2 := congrArg Fin.val e.2
  simp only [wrapCol_val] at e2
  omega

/-- The rows of a sprite never overlap: 15 ≤ 32 (R152). -/
theorem spriteBits_apart (x0 y0 r : Nat) (rows : List Byte) (h : rows.length ≤ 32) : Apart (spriteBits x0 y0 r rows) := by
  induction rows generalizing r with
  | nil => exact List.Pairwise.nil
  | cons b rest ih =>
    simp only [List.length_cons] at h
    refine List.pairwise_append.mpr ⟨rowBits_apart x0 _ b, ih (r + 1) (by omega), ?_⟩
    intro s hs s' hs' e
    obtain ⟨j, -, rfl⟩ := mem_rowBits.mp hs
    obtain ⟨k, b', hk, j', -, rfl⟩ := mem_spriteBits.mp hs'
    have hlen := (List.getElem?_eq_some_iff.mp hk).1
    have e1 := congrArg Fin.val e.1
    simp only [wrapRow_val] at e1
    omega

end Sys2Proof.Machine
end

