-- ==== Sys2Proof/Laws/PerInstr.lean ====
section
/-! SUPPORT. Statements about every instruction as syntax, one lemma per constructor. -/

namespace Sys2Proof.Laws

/-- The opcode-map row of an instruction's form (spec/30_encoding.md R75). -/
def rowOf (i : Instr) : OpcodeRow :=
  match i with
  | .cls => ⟨0xFFFF, 0x00E0, i.mnemonic⟩
  | .ret => ⟨0xFFFF, 0x00EE, i.mnemonic⟩
  | .sys _ => ⟨0xF000, 0x0000, i.mnemonic⟩
  | .jmp _ => ⟨0xF000, 0x1000, i.mnemonic⟩
  | .call _ => ⟨0xF000, 0x2000, i.mnemonic⟩
  | .skipEqImm _ _ => ⟨0xF000, 0x3000, i.mnemonic⟩
  | .skipNeImm _ _ => ⟨0xF000, 0x4000, i.mnemonic⟩
  | .skipEqReg _ _ => ⟨0xF00F, 0x5000, i.mnemonic⟩
  | .loadImm _ _ => ⟨0xF000, 0x6000, i.mnemonic⟩
  | .addImm _ _ => ⟨0xF000, 0x7000, i.mnemonic⟩
  | .loadReg _ _ => ⟨0xF00F, 0x8000, i.mnemonic⟩
  | .or _ _ => ⟨0xF00F, 0x8001, i.mnemonic⟩
  | .and _ _ => ⟨0xF00F, 0x8002, i.mnemonic⟩
  | .xor _ _ => ⟨0xF00F, 0x8003, i.mnemonic⟩
  | .addReg _ _ => ⟨0xF00F, 0x8004, i.mnemonic⟩
  | .subVx _ _ => ⟨0xF00F, 0x8005, i.mnemonic⟩
  | .shiftRight _ _ => ⟨0xF00F, 0x8006, i.mnemonic⟩
  | .subRev _ _ => ⟨0xF00F, 0x8007, i.mnemonic⟩
  | .shiftLeft _ _ => ⟨0xF00F, 0x800E, i.mnemonic⟩
  | .skipNeReg _ _ => ⟨0xF00F, 0x9000, i.mnemonic⟩
  | .loadI _ => ⟨0xF000, 0xA000, i.mnemonic⟩
  | .jmpV0 _ => ⟨0xF000, 0xB000, i.mnemonic⟩
  | .rand _ _ => ⟨0xF000, 0xC000, i.mnemonic⟩
  | .draw _ _ _ => ⟨0xF000, 0xD000, i.mnemonic⟩
  | .skipKey _ => ⟨0xF0FF, 0xE09E, i.mnemonic⟩
  | .skipNotKey _ => ⟨0xF0FF, 0xE0A1, i.mnemonic⟩
  | .loadDelay _ => ⟨0xF0FF, 0xF007, i.mnemonic⟩
  | .loadKey _ => ⟨0xF0FF, 0xF00A, i.mnemonic⟩
  | .setDelay _ => ⟨0xF0FF, 0xF015, i.mnemonic⟩
  | .setSound _ => ⟨0xF0FF, 0xF018, i.mnemonic⟩
  | .addI _ => ⟨0xF0FF, 0xF01E, i.mnemonic⟩
  | .loadFont _ => ⟨0xF0FF, 0xF029, i.mnemonic⟩
  | .loadBcd _ => ⟨0xF0FF, 0xF033, i.mnemonic⟩
  | .storeRegisters _ => ⟨0xF0FF, 0xF055, i.mnemonic⟩
  | .loadRegisters _ => ⟨0xF0FF, 0xF065, i.mnemonic⟩

theorem selects_NNN (n1 : BitVec 4) (nnn : Addr12) (m : String) :
    OpcodeRow.selects ⟨0xF000, packNNN n1 0, m⟩ (packNNN n1 nnn) = true := by
  simpa [OpcodeRow.selects] using (mask_N1 (packNNN n1 nnn) n1).mpr (fieldN1_packNNN n1 nnn)

theorem selects_XKK (n1 : BitVec 4) (x : Reg) (kk : Byte) (m : String) :
    OpcodeRow.selects ⟨0xF000, packNNN n1 0, m⟩ (packXKK n1 x kk) = true := by
  simpa [OpcodeRow.selects] using (mask_N1 (packXKK n1 x kk) n1).mpr (fieldN1_packXKK n1 x kk)

theorem selects_XYN (n1 : BitVec 4) (x y : Reg) (n4 : BitVec 4) (m : String) :
    OpcodeRow.selects ⟨0xF000, packNNN n1 0, m⟩ (packXYN n1 x y n4) = true := by
  simpa [OpcodeRow.selects] using (mask_N1 (packXYN n1 x y n4) n1).mpr (fieldN1_packXYN n1 x y n4)

theorem selects_XY (n1 : BitVec 4) (x y : Reg) (n4 : BitVec 4) (m : String) :
    OpcodeRow.selects ⟨0xF00F, packXYN n1 0 0 n4, m⟩ (packXYN n1 x y n4) = true := by
  simpa [OpcodeRow.selects] using
    (mask_N1_N4 (packXYN n1 x y n4) n1 n4).mpr ⟨fieldN1_packXYN n1 x y n4, fieldN4_packXYN n1 x y n4⟩

theorem selects_X (n1 : BitVec 4) (x : Reg) (kk : Byte) (m : String) :
    OpcodeRow.selects ⟨0xF0FF, packXKK n1 0 kk, m⟩ (packXKK n1 x kk) = true := by
  simpa [OpcodeRow.selects] using
    (mask_N1_KK (packXKK n1 x kk) n1 kk).mpr ⟨fieldN1_packXKK n1 x kk, fieldKK_packXKK n1 x kk⟩

/-- The instruction's own row of R75 selects its word. -/
def EncodedRow.Statement (i : Instr) : Prop := (rowOf i).selects (encode i) = true

theorem EncodedRow.cls : EncodedRow.Statement .cls := by unfold EncodedRow.Statement; decide
theorem EncodedRow.ret : EncodedRow.Statement .ret := by unfold EncodedRow.Statement; decide
theorem EncodedRow.sys (nnn : Addr12) : EncodedRow.Statement (.sys nnn) := selects_NNN 0x0 nnn "Sys"
theorem EncodedRow.jmp (nnn : Addr12) : EncodedRow.Statement (.jmp nnn) := selects_NNN 0x1 nnn "Jmp"
theorem EncodedRow.call (nnn : Addr12) : EncodedRow.Statement (.call nnn) := selects_NNN 0x2 nnn "Call"
theorem EncodedRow.skipEqImm (x : Reg) (kk : Byte) : EncodedRow.Statement (.skipEqImm x kk) := selects_XKK 0x3 x kk "SkipEqImm"
theorem EncodedRow.skipNeImm (x : Reg) (kk : Byte) : EncodedRow.Statement (.skipNeImm x kk) := selects_XKK 0x4 x kk "SkipNeImm"
theorem EncodedRow.skipEqReg (x y : Reg) : EncodedRow.Statement (.skipEqReg x y) := selects_XY 0x5 x y 0x0 "SkipEqReg"
theorem EncodedRow.loadImm (x : Reg) (kk : Byte) : EncodedRow.Statement (.loadImm x kk) := selects_XKK 0x6 x kk "LoadImm"
theorem EncodedRow.addImm (x : Reg) (kk : Byte) : EncodedRow.Statement (.addImm x kk) := selects_XKK 0x7 x kk "AddImm"
theorem EncodedRow.loadReg (x y : Reg) : EncodedRow.Statement (.loadReg x y) := selects_XY 0x8 x y 0x0 "LoadReg"
theorem EncodedRow.or (x y : Reg) : EncodedRow.Statement (.or x y) := selects_XY 0x8 x y 0x1 "Or"
theorem EncodedRow.and (x y : Reg) : EncodedRow.Statement (.and x y) := selects_XY 0x8 x y 0x2 "And"
theorem EncodedRow.xor (x y : Reg) : EncodedRow.Statement (.xor x y) := selects_XY 0x8 x y 0x3 "Xor"
theorem EncodedRow.addReg (x y : Reg) : EncodedRow.Statement (.addReg x y) := selects_XY 0x8 x y 0x4 "AddReg"
theorem EncodedRow.subVx (x y : Reg) : EncodedRow.Statement (.subVx x y) := selects_XY 0x8 x y 0x5 "SubVx"
theorem EncodedRow.shiftRight (x y : Reg) : EncodedRow.Statement (.shiftRight x y) := selects_XY 0x8 x y 0x6 "ShiftRight"
theorem EncodedRow.subRev (x y : Reg) : EncodedRow.Statement (.subRev x y) := selects_XY 0x8 x y 0x7 "SubRev"
theorem EncodedRow.shiftLeft (x y : Reg) : EncodedRow.Statement (.shiftLeft x y) := selects_XY 0x8 x y 0xE "ShiftLeft"
theorem EncodedRow.skipNeReg (x y : Reg) : EncodedRow.Statement (.skipNeReg x y) := selects_XY 0x9 x y 0x0 "SkipNeReg"
theorem EncodedRow.loadI (nnn : Addr12) : EncodedRow.Statement (.loadI nnn) := selects_NNN 0xA nnn "LoadI"
theorem EncodedRow.jmpV0 (nnn : Addr12) : EncodedRow.Statement (.jmpV0 nnn) := selects_NNN 0xB nnn "JmpV0"
theorem EncodedRow.rand (x : Reg) (kk : Byte) : EncodedRow.Statement (.rand x kk) := selects_XKK 0xC x kk "Rand"
theorem EncodedRow.draw (x y : Reg) (n : Fin 16) : EncodedRow.Statement (.draw x y n) := selects_XYN 0xD x y (fieldBits n) "Draw"
theorem EncodedRow.skipKey (x : Reg) : EncodedRow.Statement (.skipKey x) := selects_X 0xE x 0x9E "SkipKey"
theorem EncodedRow.skipNotKey (x : Reg) : EncodedRow.Statement (.skipNotKey x) := selects_X 0xE x 0xA1 "SkipNotKey"
theorem EncodedRow.loadDelay (x : Reg) : EncodedRow.Statement (.loadDelay x) := selects_X 0xF x 0x07 "LoadDelay"
theorem EncodedRow.loadKey (x : Reg) : EncodedRow.Statement (.loadKey x) := selects_X 0xF x 0x0A "LoadKey"
theorem EncodedRow.setDelay (x : Reg) : EncodedRow.Statement (.setDelay x) := selects_X 0xF x 0x15 "SetDelay"
theorem EncodedRow.setSound (x : Reg) : EncodedRow.Statement (.setSound x) := selects_X 0xF x 0x18 "SetSound"
theorem EncodedRow.addI (x : Reg) : EncodedRow.Statement (.addI x) := selects_X 0xF x 0x1E "AddI"
theorem EncodedRow.loadFont (x : Reg) : EncodedRow.Statement (.loadFont x) := selects_X 0xF x 0x29 "LoadFont"
theorem EncodedRow.loadBcd (x : Reg) : EncodedRow.Statement (.loadBcd x) := selects_X 0xF x 0x33 "LoadBcd"
theorem EncodedRow.storeRegisters (x : Reg) : EncodedRow.Statement (.storeRegisters x) := selects_X 0xF x 0x55 "StoreRegisters"
theorem EncodedRow.loadRegisters (x : Reg) : EncodedRow.Statement (.loadRegisters x) := selects_X 0xF x 0x65 "LoadRegisters"

end Sys2Proof.Laws
end

