-- ==== Sys2Proof/Tests/Slice0.lean ====
section
/-! SUPPORT. The model's own tests: expected results are the vectors of spec/95_test_vectors.md (their ids stand beside them) or are worked out by hand from the rule named. The second half shows, for each statement with hypotheses, states and operands that meet them. -/

namespace Sys2Proof.Tests

open Machine

set_option maxRecDepth 10000

/-! ## Small states -/

/-- The next state of a result, if it is one. -/
def nextOf (r : Result) : Option State :=
  match r with
  | .next t => some t
  | .fault _ | .refused _ => none

/-- The state after reset, with some general registers set. -/
def regs (l : List (Reg × Byte)) : State := l.foldl (fun s p => writeReg p.1 p.2 s) State.reset

/-- `s` with bytes stored from `a` on. -/
def withBytes (a : Nat) (bytes : List Byte) (s : State) : State :=
  { s with mem := Memory.writeRange s.cfg s.mem a bytes }

/-- A blank screen with some of its 256 bytes set. -/
def screen (l : List (Fin 256 × Byte)) : Framebuffer := l.foldl (fun fb p => fb.set p.1 p.2) blankScreen

/-- No key down but `k`. -/
def keyDown (k : Fin 16) : Keys := (Vector.replicate 16 false).set k true

/-- One step of the instruction word `w` fetched at `a`. -/
def run1 (a w : Word) (s : State) : Option State := nextOf (step ({ s with pc := a }.withFetchWord 16 w.toNat))

/-- The same configuration with the other value of one parameter. -/
def resultWins (s : State) : State := { s with cfg := { s.cfg with vfPriority := .resultWins } }
def mem4095 (s : State) : State := { s with cfg := { s.cfg with memSize := .bytes4095 } }

/-- V1 and VF after one step at 0x200. -/
def v1vf (w : Word) (s : State) : Option (Byte × Byte) := (run1 0x200 w s).map fun t => (reg t 1, reg t vf)

/-- The fault record, `PC` and the phase after one step. -/
def faulted (o : Option State) : Option (Option FaultRecord × Word × Phase) := o.map fun t => (t.fault, t.pc, t.phase)

/-! ## Well-formedness (R78) -/

theorem test_wf_sys_is_not_cls : (Instr.sys 0x0E0).wf = false := by decide
theorem test_wf_sys_is_not_ret : (Instr.sys 0x0EE).wf = false := by decide
theorem test_wf_sys_takes_its_neighbours :
    (Instr.sys 0x0E1).wf = true ∧ (Instr.sys 0x0FE).wf = true ∧ (Instr.sys 0x000).wf = true := by decide

/-! ## Decoding, every form, from the patterns of R75 written out bit by bit (95_test_vectors.md 2.1) -/

theorem test_decode_group0 :
    decodeWord 0b0000_0000_1110_0000 = .ok .cls ∧ decodeWord 0b0000_0000_1110_1110 = .ok .ret ∧
    decodeWord 0b0000_0000_1110_0001 = .ok (.sys 0x0E1) ∧ decodeWord 0b0000_1111_1111_1111 = .ok (.sys 0xFFF) := by decide

theorem test_decode_addresses :
    decodeWord 0b0001_1010_1011_1100 = .ok (.jmp 0xABC) ∧ decodeWord 0b0010_0010_0000_0000 = .ok (.call 0x200) ∧
    decodeWord 0b1010_0001_0010_0011 = .ok (.loadI 0x123) ∧ decodeWord 0b1011_0011_0000_0000 = .ok (.jmpV0 0x300) := by
  decide

theorem test_decode_immediates :
    decodeWord 0b0011_1010_0101_0101 = .ok (.skipEqImm 0xA 0x55) ∧
    decodeWord 0b0100_1111_0000_0000 = .ok (.skipNeImm 0xF 0x00) ∧
    decodeWord 0b0110_0010_0000_0111 = .ok (.loadImm 2 0x07) ∧
    decodeWord 0b0111_1110_1111_1111 = .ok (.addImm 0xE 0xFF) ∧
    decodeWord 0b1100_0011_0000_1111 = .ok (.rand 3 0x0F) := by decide

theorem test_decode_register_pairs :
    decodeWord 0b0101_1010_1011_0000 = .ok (.skipEqReg 0xA 0xB) ∧
    decodeWord 0b1001_1010_1011_0000 = .ok (.skipNeReg 0xA 0xB) ∧
    decodeWord 0b1101_0001_0010_0101 = .ok (.draw 1 2 5) ∧ decodeWord 0b1101_0001_0010_0000 = .ok (.draw 1 2 0) := by
  decide

theorem test_decode_group8 :
    decodeWord 0b1000_0001_0010_0000 = .ok (.loadReg 1 2) ∧ decodeWord 0b1000_0001_0010_0001 = .ok (.or 1 2) ∧
    decodeWord 0b1000_0001_0010_0010 = .ok (.and 1 2) ∧ decodeWord 0b1000_0001_0010_0011 = .ok (.xor 1 2) ∧
    decodeWord 0b1000_0001_0010_0100 = .ok (.addReg 1 2) ∧ decodeWord 0b1000_0001_0010_0101 = .ok (.subVx 1 2) ∧
    decodeWord 0b1000_0001_0010_0110 = .ok (.shiftRight 1 2) ∧ decodeWord 0b1000_0001_0010_0111 = .ok (.subRev 1 2) ∧
    decodeWord 0b1000_0001_0010_1110 = .ok (.shiftLeft 1 2) := by decide

theorem test_decode_groupE :
    decodeWord 0b1110_0001_1001_1110 = .ok (.skipKey 1) ∧ decodeWord 0b1110_0001_1010_0001 = .ok (.skipNotKey 1) := by
  decide

theorem test_decode_groupF :
    decodeWord 0b1111_0001_0000_0111 = .ok (.loadDelay 1) ∧ decodeWord 0b1111_0001_0000_1010 = .ok (.loadKey 1) ∧
    decodeWord 0b1111_0001_0001_0101 = .ok (.setDelay 1) ∧ decodeWord 0b1111_0001_0001_1000 = .ok (.setSound 1) ∧
    decodeWord 0b1111_0001_0001_1110 = .ok (.addI 1) ∧ decodeWord 0b1111_0001_0010_1001 = .ok (.loadFont 1) ∧
    decodeWord 0b1111_0001_0011_0011 = .ok (.loadBcd 1) ∧ decodeWord 0b1111_0001_0101_0101 = .ok (.storeRegisters 1) ∧
    decodeWord 0b1111_1111_0110_0101 = .ok (.loadRegisters 0xF) := by decide

/-- The words that 95_test_vectors.md 2.1 lists as `DecodeFailure`. -/
theorem test_decode_failures :
    [0x5AB1, 0x8128, 0x8129, 0x812A, 0x812B, 0x812C, 0x812D, 0x812F, 0x9ABF, 0xE19F, 0xE100, 0xE1A0,
      0xF100, 0xF108, 0xF11F, 0xF130, 0xF175, 0xF185, 0xF1FF].map (decodeTableWord 16) = List.replicate 19 none := by decide

/-- S8: "Decoding bytes `0x62 0x07` yields `Load(V2, 7)`", the high byte first. -/
theorem test_decode_bytes_are_big_endian : decodeBytes [0x62, 0x07] = .ok (.loadImm 2 7, []) := by decide
theorem test_decode_one_byte_is_no_instruction : decodeBytes [0x62] = .error .tooShort := by decide

/-! ## Loads, arithmetic, logic, shifts (95_test_vectors.md 2.2) -/

theorem test_loadImm_A1_A2 :
    (run1 0x200 0x6AFF (regs [])).map (reg · 0xA) = some 0xFF ∧
    (run1 0x200 0x6F07 (regs [(0xF, 1)])).map (reg · vf) = some 7 := by decide
theorem test_addImm_A5 : (run1 0x200 0x70FF (regs [(0, 2), (0xF, 1)])).map (fun t => (reg t 0, reg t vf)) = some (1, 1) := by
  decide
theorem test_addImm_A6 : (run1 0x200 0x7F01 (regs [(0xF, 0xFF)])).map (reg · vf) = some 0 := by decide
theorem test_loadReg_A7 : (run1 0x200 0x8130 (regs [(3, 0x2A)])).map (fun t => (reg t 1, reg t 3)) = some (0x2A, 0x2A) := by
  decide
theorem test_or_A8 : v1vf 0x8121 (regs [(1, 0x0F), (2, 0xF0), (0xF, 1)]) = some (0xFF, 1) := by decide
theorem test_and_A9 : v1vf 0x8122 (regs [(1, 0x3C), (2, 0x0F), (0xF, 1)]) = some (0x0C, 1) := by decide
theorem test_xor_A10 : v1vf 0x8123 (regs [(1, 0xFF), (2, 0x0F), (0xF, 1)]) = some (0xF0, 1) := by decide
theorem test_addReg_A13_A17 :
    v1vf 0x8124 (regs [(1, 128), (2, 127), (0xF, 1)]) = some (255, 0) ∧
    v1vf 0x81F4 (regs [(1, 1), (0xF, 255)]) = some (0, 1) := by decide
theorem test_addReg_A18 :
    (v1vf 0x8F14 (regs [(0xF, 200), (1, 100)])) = some (100, 1) ∧
    (v1vf 0x8F14 (resultWins (regs [(0xF, 200), (1, 100)]))) = some (100, 44) := by decide
theorem test_subVx_A20_A21 :
    v1vf 0x8125 (regs [(1, 3), (2, 5)]) = some (254, 0) ∧
    v1vf 0x8125 (regs [(1, 7), (2, 7), (0xF, 1)]) = some (0, 0) := by decide
theorem test_subVx_A24 :
    (v1vf 0x8F15 (regs [(0xF, 9), (1, 4)])) = some (4, 1) ∧
    (v1vf 0x8F15 (resultWins (regs [(0xF, 9), (1, 4)]))) = some (4, 5) := by decide
theorem test_subRev_A25_A26 :
    v1vf 0x8127 (regs [(1, 3), (2, 10)]) = some (7, 1) ∧ v1vf 0x8127 (regs [(1, 5), (2, 3)]) = some (254, 0) := by decide
theorem test_subRev_A27_A28 :
    v1vf 0x8127 (regs [(1, 7), (2, 7), (0xF, 1)]) = some (0, 0) ∧
    v1vf 0x8F17 (resultWins (regs [(0xF, 4), (1, 9)])) = some (9, 5) := by decide
theorem test_shiftRight_A30 : v1vf 0x8126 (regs [(1, 0xFE), (2, 1)]) = some (0x7F, 0) := by decide
theorem test_shiftRight_A33 :
    (v1vf 0x8F06 (regs [(0xF, 6)])) = some (0, 0) ∧ (v1vf 0x8F06 (resultWins (regs [(0xF, 6)]))) = some (0, 3) := by decide
theorem test_shiftLeft_A34 : v1vf 0x810E (regs [(1, 0x81)]) = some (2, 1) := by decide
theorem test_shiftLeft_A37 :
    (v1vf 0x8FFE (regs [(0xF, 0x81)])) = some (0, 1) ∧
    (v1vf 0x8FFE (resultWins (regs [(0xF, 0x81)]))) = some (0, 2) := by decide

/-! ## Control transfer (95_test_vectors.md 2.3) -/

theorem test_sys_F1 : (run1 0x200 0x0123 (regs [])).map (·.pc) = some 0x202 := by decide
theorem test_jmp_F3 : (run1 0x200 0x1FFF (regs [])).map (·.pc) = some 0xFFF := by decide
theorem test_call_F5 :
    (run1 0x202 0x220A (regs [])).map (fun t => (t.stack.head?, t.sp, t.pc)) = some (some 0x204, 1, 0x20A) := by decide
theorem test_call_F8_last :
    faulted (run1 0x200 0x2200 { regs [] with sp := 16 }) = some (some (.stackOverflow 0x200), 0x202, .halted) := by decide
theorem test_ret_F6 :
    (run1 0x20C 0x00EE { regs [] with sp := 1, stack := (regs []).stack.set 0 0x204 }).map (fun t => (t.sp, t.pc)) =
      some (0, 0x204) := by decide
theorem test_ret_F7 : faulted (run1 0x200 0x00EE (regs [])) = some (some (.stackUnderflow 0x200), 0x202, .halted) := by
  decide
theorem test_jmpV0_F10 : (run1 0x200 0xBFFF (regs [(0, 0xFF)])).map (·.pc) = some 0x10FE := by decide
theorem test_jmpV0_F11 : (run1 0x200 0xB2FF (regs [(0, 2)])).map (·.pc) = some 0x301 := by decide
theorem test_skipEqImm_F12_F13 :
    (run1 0x206 0x3000 (regs [])).map (·.pc) = some 0x20A ∧ (run1 0x206 0x3000 (regs [(0, 1)])).map (·.pc) = some 0x208 := by
  decide
/-- F20: the illegal word behind a taken skip is not looked at. -/
theorem test_skipEqImm_F20 :
    faulted (run1 0x200 0x3000 (withBytes 0x202 [0x50, 0x01] (regs []))) = some (none, 0x204, .run) := by decide
theorem test_skipNeImm_F14_F15 :
    (run1 0x300 0x4311 (regs [(3, 0x10)])).map (·.pc) = some 0x304 ∧
    (run1 0x300 0x4311 (regs [(3, 0x11)])).map (·.pc) = some 0x302 := by decide
theorem test_skipEqReg_F16_F17 :
    (run1 0x210 0x5120 (regs [(1, 9), (2, 9)])).map (·.pc) = some 0x214 ∧
    (run1 0x210 0x5110 (regs [(1, 9)])).map (·.pc) = some 0x214 := by decide
theorem test_skipNeReg_F18_F19 :
    (run1 0x210 0x9120 (regs [(1, 9), (2, 8)])).map (·.pc) = some 0x214 ∧
    (run1 0x210 0x9110 (regs [(1, 9)])).map (·.pc) = some 0x212 := by decide

/-! ## Index register and memory (95_test_vectors.md 2.4) -/

/-- `n` bytes of memory from `a`. -/
def bytesAt (a n : Nat) (t : State) : List Byte := (List.range n).map fun k => readByte t (a + k)

theorem test_loadI_M1 : (run1 0x200 0xA300 (regs [])).map (·.i) = some 0x300 := by decide
theorem test_addI_M3_M4 :
    (run1 0x200 0xF21E { regs [(2, 1)] with i := 0xFFF }).map (fun t => (t.i, reg t vf)) = some (0, 1) ∧
    (run1 0x200 0xF21E { regs [(2, 0xFE)] with i := 0xF01 }).map (fun t => (t.i, reg t vf)) = some (0xFFF, 0) := by decide
theorem test_addI_M5 :
    (run1 0x200 0xFF1E { regs [(0xF, 3)] with i := 0xFFE }).map (fun t => (t.i, reg t vf)) = some (1, 1) := by decide
theorem test_loadFont_M6 :
    [0x0A, 0x0F, 0x10].map (fun d => (run1 0x200 0xF029 (regs [(0, d)])).map (·.i)) = [some 0x32, some 0x4B, some 0x50] := by
  decide
theorem test_loadBcd_M8_M9 :
    (run1 0x200 0xF033 { regs [(0, 205)] with i := 0x300 }).map (bytesAt 0x300 3) = some [2, 0, 5] ∧
    (run1 0x200 0xF033 { regs [(0, 99)] with i := 0xFFD }).map (bytesAt 0xFFD 3) = some [0, 9, 9] := by decide
theorem test_loadBcd_M11 :
    faulted (run1 0x200 0xF033 { regs [(0, 99)] with i := 0xFFE }) = some (some (.outOfBounds 0xFFE 3), 0x202, .halted) := by
  decide
theorem test_storeRegisters_M7 :
    (run1 0x200 0xF355 { regs [(0, 1), (1, 2), (2, 3), (3, 4), (4, 5)] with i := 0x400 }).map
      (fun t => (bytesAt 0x400 5 t, t.i)) = some ([1, 2, 3, 4, 0], 0x400) := by decide
theorem test_storeRegisters_M13 :
    faulted (run1 0x200 0xFF55 { regs [] with i := 0xFF1 }) = some (some (.outOfBounds 0xFF1 16), 0x202, .halted) := by decide
theorem test_loadRegisters_M14 :
    (run1 0x200 0xF065 (withBytes 0xFFF [0x77] { regs [] with i := 0xFFF })).map (reg · 0) = some 0x77 ∧
    faulted (run1 0x200 0xF065 (mem4095 { regs [] with i := 0xFFF })) = some (some (.outOfBounds 0xFFF 1), 0x202, .halted) := by
  decide
theorem test_loadRegisters_M15 :
    (run1 0x200 0xFF65 (regs [])).map (·.x) =
      some #v[0xF0, 0x90, 0x90, 0x90, 0xF0, 0x20, 0x60, 0x20, 0x20, 0x70, 0xF0, 0x10, 0xF0, 0x80, 0xF0, 0xF0] := by decide

/-! ## Display (95_test_vectors.md 2.5) -/

theorem test_draw_G4_wraps_both_edges :
    (run1 0x200 0xD012 (withBytes 0x300 [0xFF, 0x81] { regs [(0, 60), (1, 31)] with i := 0x300 })).map
      (fun t => (([255, 248, 7, 0, 247] : List (Fin 256)).map (t.fb[·]), reg t vf)) = some ([0x0F, 0xF0, 0x08, 0x10, 0], 0) := by decide
theorem test_draw_G7_G10 :
    (run1 0x200 0xD011 (withBytes 0x300 [0x40] { regs [] with i := 0x300, fb := screen [(0, 0xC0)] })).map
      (fun t => (t.fb[0], reg t vf)) = some (0x80, 1) ∧
    faulted (run1 0x200 0xD012 { regs [] with i := 0xFFF }) = some (some (.outOfBounds 0xFFF 2), 0x202, .halted) := by decide
theorem test_cls_G12 :
    (run1 0x200 0x00E0 { regs [(0xF, 1)] with fb := screen [(9, 0xFF)] }).map (fun t => (t.fb[9], reg t vf)) =
      some (0, 1) := by decide
/-- S5: `0xFF` at `x` = 4 is split over two bytes, here by the packed composer of R154. -/
theorem test_packed_composer_S5 :
    (fun d : Canvas => (d.fb[0], d.fb[1], d.coll)) (drawSpritePacked 4 0 [0xFF] blankScreen) = (0x0F, 0xF0, false) := by
  decide

/-! ## Random, keys, timers, the sequencer (95_test_vectors.md 2.6 and 2.7) -/

theorem test_rand_K1 : reg (randWith 0xA7 3 0x0F State.reset) 3 = 0x07 := by decide
theorem test_skipKey_K4_K5 :
    (run1 0x220 0xE19E { regs [(1, 0x0A)] with keys := keyDown 10 }).map (·.pc) = some 0x224 ∧
    (run1 0x220 0xE19E (regs [(1, 0x0A)])).map (·.pc) = some 0x222 := by decide
theorem test_skipKey_K8 :
    faulted (run1 0x220 0xE19E (regs [(1, 0x10)])) = some (some (.indexOutOfRange 0x10 0x220), 0x222, .halted) := by decide
theorem test_skipNotKey_K6_K7 :
    (run1 0x220 0xE1A1 { regs [(1, 0x0A)] with keys := keyDown 10 }).map (·.pc) = some 0x222 ∧
    (run1 0x220 0xE1A1 (regs [(1, 0x0A)])).map (·.pc) = some 0x224 := by decide
theorem test_loadKey_K9 :
    (run1 0x230 0xF50A { regs [] with dt := 5 }).map (fun t => (t.phase, t.waitreg, t.pc, t.dt)) =
      some (.waitKey, 5, 0x232, 5) := by decide
theorem test_loadKey_K10 :
    (fun t : State => (reg t 5, t.keys, t.phase)) (keyPress 7 { regs [] with phase := .waitKey, waitreg := 5 }) =
      (7, keyDown 7, .run) := by decide
theorem test_loadDelay_K11 : (run1 0x200 0xF207 { regs [] with dt := 0x3C }).map (reg · 2) = some 0x3C := by decide
theorem test_setDelay_K12 : (run1 0x200 0xF215 (regs [(2, 60)])).map (·.dt) = some 60 := by decide
theorem test_setSound_K13 : (run1 0x200 0xF018 (regs [(0, 2)])).map (fun t => (t.st, tone t)) = some (2, true) := by decide
theorem test_tick_K14_K15 :
    (fun t : State => (t.dt, t.st)) (tick { regs [] with dt := 1 }) = (0, 0) ∧
    (fun t : State => (t.dt, t.st)) (tick { regs [] with st := 255 }) = (0, 254) := by decide
theorem test_fetch_X1 : (run1 0xFFE 0x6001 (regs [])).map (fun t => (reg t 0, t.pc)) = some (1, 0x1000) := by decide
theorem test_fetch_X3 :
    faulted (nextOf (step { regs [] with pc := 0xFFF })) = some (some (.outOfBounds 0xFFF 2), 0xFFF, .halted) := by decide
theorem test_fetch_X4 :
    faulted (nextOf (step (mem4095 { regs [] with pc := 0xFFE }))) = some (some (.outOfBounds 0xFFE 2), 0xFFE, .halted) := by
  decide
theorem test_fetch_X5_odd_pc : (run1 0x201 0x6A55 (regs [])).map (fun t => (reg t 0xA, t.pc)) = some (0x55, 0x203) := by decide
theorem test_decode_X6 :
    faulted (run1 0x200 0x5001 (regs [])) = some (some (.decodeFailure 0x5001 0x200), 0x202, .halted) := by decide
theorem test_halted_X7 :
    step { regs [] with phase := .halted, fault := some (.stackUnderflow 0x200) } =
      .fault (.halted (some (.stackUnderflow 0x200))) := rfl
theorem test_ipf_X9_X10 :
    [1000, 600, 500, 700, 60, 59].map (fun cps => { Config.default with cps := cps }.ipf) = [16, 10, 8, 11, 1, 0] ∧
    { Config.default with guardCycle := true }.ipf = 17 := by decide
/-- R57, R58: the glyph of 0xA stands at 0x32; everything from 0x50 on is 0. -/
theorem test_reset_font : bytesAt 0x32 5 State.reset = [0xF0, 0x90, 0xF0, 0x90, 0x90] ∧ readByte State.reset 0x50 = 0 := by decide
/-- R211: the strap moves `PC` and the place of the load. -/
theorem test_boot_eti660 :
    (boot { Config.default with eti660 := true } [0x12, 0x34]).map (fun t => (t.pc, bytesAt 0x600 2 t)) =
      some (0x600, [0x12, 0x34]) := by
  rw [boot, loadProgram, if_pos (show beforeFirstStep (State.resetWith _) from rfl)]
  decide

/-! ## Witnesses: states and operands that meet the hypotheses of each statement

Each is named after its statement, which stands in Sys2Proof/Certificates/Slice0/Obligations.lean. A statement whose variables
are all free has none. -/

/-- A running machine at the last instruction of its frame, with a register above 0xF and `I` at the last byte. -/
def busy : State := { regs [(1, 0x10)] with pc := 0x202, i := 0xFFF, fcount := 15 }

/-- A running machine that holds sixteen return addresses. -/
def fullStack : State := { regs [] with pc := 0x202, sp := 16, stack := List.replicate 16 0x202 }

/-- A machine stopped by its first fault. -/
def stopped : State := { regs [] with pc := 0x202, phase := .halted, fault := some (.stackUnderflow 0x200) }

/-- A machine that spins in `Jmp` to its own address. -/
def spinning : State := withBytes 0x200 [0x12, 0x00] { regs [] with fcount := 16 }

/-- A decidable claim on the members of a list, by running through the list. -/
theorem forall_of_all {α : Type} {l : List α} {p : α → Prop} [DecidablePred p] (h : l.all (fun a => decide (p a)) = true) :
    ∀ a ∈ l, p a := by simpa using h

theorem busy_inv : busy.Inv :=
  ⟨by decide, by decide, by decide, by decide, by decide, by decide, forall_of_all (by decide), by decide, by decide, by decide⟩

theorem fullStack_inv : fullStack.Inv :=
  ⟨by decide, by decide, by decide, by decide, by decide, by decide, forall_of_all (by decide), by decide, by decide, by decide⟩

theorem stopped_inv : stopped.Inv :=
  ⟨by decide, by decide, by decide, by decide, by decide, by decide, forall_of_all (by decide), by decide, by decide, by decide⟩

theorem witness_DecodeInvertsEncode : (Instr.sys 0xFFF).wf = true ∧ (Instr.draw 0xF 0xF 0xF).wf = true := by decide

theorem witness_EncodeInvertsDecode : decodeWord 0x0FFF = .ok (.sys 0xFFF) := by decide

theorem witness_DecoderFollowsOpcodeMap :
    decodeWord 0xFF65 = .ok (.loadRegisters 0xF) ∧ decodeWord 0xFFFF = .error (.illegalF 0xFF) := by decide

theorem witness_ReservedFamilyDoesNothing :
    ∀ w ∈ ([0x0000, 0x00E1, 0x00EF, 0x0FFF] : List Word), w.toNat < 0x1000 ∧ w ≠ 0x00E0 ∧ w ≠ 0x00EE :=
  forall_of_all (by decide)

/-- The last place an instruction can be fetched from. -/
theorem witness_StepRunsTheDecodedInstruction :
    ∃ s : State, s.cfg.wf ∧ s.phase = .run ∧ s.fcount < s.cfg.ipf ∧ s.pc.toNat + 2 = s.cfg.memBytes ∧
      decodeBytes [readByte s s.pc.toNat, readByte s (s.pc.toNat + 1)] = .ok (.loadImm 0 1, []) :=
  ⟨withBytes 0xFFE [0x60, 0x01] { regs [] with pc := 0xFFE, fcount := 15 }, by decide⟩

/-- The first place no instruction can be fetched from. -/
theorem witness_FetchOutsideMemoryHalts :
    ∃ s : State, s.cfg.wf ∧ s.phase = .run ∧ s.fcount < s.cfg.ipf ∧ s.pc.toNat + 2 = s.cfg.memBytes + 1 :=
  ⟨{ regs [] with pc := 0xFFF, fcount := 15 }, by decide⟩

theorem witness_IllegalWordHalts :
    ∃ s : State, s.cfg.wf ∧ s.phase = .run ∧ s.fcount < s.cfg.ipf ∧ s.pc.toNat + 2 ≤ s.cfg.memBytes ∧
      decodeWord (wordOfBytes (readByte s s.pc.toNat) (readByte s (s.pc.toNat + 1))) = .error (.illegal5 1) :=
  ⟨withBytes 0x200 [0x50, 0x01] (regs []), by decide⟩

theorem witness_TickCountsBothTimersDown_waiting :
    ∃ s t : State, s.phase ≠ .run ∧ step s = .next t := ⟨{ busy with phase := .waitKey }, _, by decide, rfl⟩

/-- Among them a machine that is waiting, outside memory and at the end of its frame. -/
theorem witness_PlacedWordRunsNext :
    ∃ s : State, s.cfg.wf ∧ Memory.wf s.cfg s.mem ∧ s.phase = .waitKey ∧ s.pc = 0x1000 ∧ s.fcount = s.cfg.ipf ∧
      decodeWord 0xF00A = .ok (.loadKey 0) :=
  ⟨withBytes 0x200 [0x50, 0x01] { regs [] with pc := 0x1000, phase := .waitKey, fcount := 16 }, by decide⟩

theorem witness_InstructionCountsOnceInItsFrame :
    ∃ t, step busy = .next t ∧ busy.phase = .run ∧ busy.fcount < busy.cfg.ipf := ⟨_, rfl, by decide⟩

theorem witness_FaultingInstructionChangesNothing :
    ∃ t, exec .ret busy = .next t ∧ busy.phase ≠ .halted ∧ t.phase = .halted := ⟨_, rfl, by decide⟩

/-- The faults of `Ret`, `Draw`, `LoadBcd`, `StoreRegisters`, `LoadRegisters` and the key skips, in one state. -/
theorem witness_FaultsComeFromTheirInstructions :
    busy.Inv ∧ busy.fault = none ∧
      [Instr.ret, .draw 0 0 2, .loadBcd 0, .storeRegisters 1, .loadRegisters 1, .skipKey 1, .skipNotKey 1].map
        (fun i => (nextOf (exec i busy)).bind (·.fault)) =
      [some (.stackUnderflow 0x200), some (.outOfBounds 0xFFF 2), some (.outOfBounds 0xFFF 3), some (.outOfBounds 0xFFF 2),
        some (.outOfBounds 0xFFF 2), some (.indexOutOfRange 0x10 0x200), some (.indexOutOfRange 0x10 0x200)] :=
  ⟨busy_inv, by decide⟩

theorem witness_FaultsComeFromTheirInstructions_call :
    fullStack.Inv ∧ fullStack.fault = none ∧
      (nextOf (exec (.call 0x300) fullStack)).bind (·.fault) = some (.stackOverflow 0x200) :=
  ⟨fullStack_inv, by decide⟩

theorem witness_ResetGivesEveryValue : ∃ c s₀ s, s ≠ State.resetWith c ∧ s = assertReset c s₀ :=
  ⟨Config.default, { busy with draws := 1 }, _, fun h => absurd (congrArg State.draws h) (by decide), rfl⟩

/-- The default configuration, and one at the bounds. -/
theorem witness_ResetMeetsTheInvariant :
    Config.default.wf ∧ { Config.default with memSize := .bytes4095, stackDepth := 255, cps := 1, guardCycle := true }.wf := by
  decide

theorem witness_StepKeepsTheInvariant : ∃ t, busy.Inv ∧ step busy = .next t := ⟨_, busy_inv, rfl⟩

theorem witness_StepKeepsTheConfiguration : ∃ t, step busy = .next t := ⟨_, rfl⟩

theorem witness_InstructionsPerFrameMustBePositive :
    ∃ s : State, s.cfg.ipf = 0 ∧ s.cfg.cps = 59 := ⟨State.resetWith { Config.default with cps := 59 }, by decide⟩

/-- The longest image that fits, and the shortest that does not. -/
theorem witness_ProgramLoadCopiesTheImage :
    ∃ (c : Config) (image longer : List Byte), c.origin.toNat + image.length = c.memBytes ∧
      c.memBytes < c.origin.toNat + longer.length :=
  ⟨Config.default, List.replicate 3584 0, List.replicate 3585 0,
    by rw [List.length_replicate]; decide, by rw [List.length_replicate]; decide⟩

theorem witness_ProgramLoadCopiesTheImage_late : busy ≠ assertReset busy.cfg busy :=
  fun h => absurd (congrArg State.pc h) (by decide)

theorem witness_FaultRecordIsKeptUntilReset_kept :
    ∃ s t f, s.fault = some f ∧ step s = .next t := ⟨{ busy with fault := some (.stackUnderflow 0x200) }, _, _, rfl, rfl⟩

theorem witness_FaultRecordIsKeptUntilReset_stopped : stopped.Inv ∧ stopped.fault = some (.stackUnderflow 0x200) :=
  ⟨stopped_inv, rfl⟩

theorem witness_MachineStopsExactlyWhenHalted :
    stopped.cfg.wf ∧ stopped.phase = .halted ∧ busy.cfg.wf ∧ busy.phase ≠ .halted := by decide

theorem witness_FinalStateIsKept : ∃ t, AtFinalState spinning ∧ step spinning = .next t :=
  ⟨_, ⟨rfl, by decide, rfl, rfl, 0x200, by decide, by decide⟩, rfl⟩

theorem witness_FaultOutputShowsTheFirstFault :
    busy.fault = none ∧ Halts (.stackUnderflow 0x200) busy (takeFault (.stackUnderflow 0x200) busy) :=
  ⟨rfl, rfl, fun _ => rfl, fun _ h => by cases h⟩

theorem witness_TickCountsBothTimersDown :
    ∃ s : State, s.cfg.wf ∧ s.phase = .run ∧ s.cfg.ipf = s.fcount ∧ s.frameMove = .tick ∧ s.dt = 0 ∧ s.st = 255 :=
  ⟨{ busy with fcount := 16, st := 255 }, by decide⟩

theorem witness_FrameEndsWithRenderAndPoll :
    ∀ m ∈ [FrameMove.render, .poll], ∃ s : State, s.cfg.wf ∧ s.phase = .run ∧ s.cfg.ipf = s.fcount ∧ s.frameMove = m :=
  fun m _ => ⟨{ busy with fcount := 16, frameMove := m }, (by decide : busy.cfg.wf), rfl, (by decide : busy.cfg.ipf = 16), rfl⟩

/-- The last instruction of a frame, its tick, render and poll. -/
theorem witness_TicksFollowTheInstructionCount :
    ∃ t, busy.Inv ∧ busy.fcount < busy.cfg.ipf ∧ runSteps 4 busy = .next t ∧ t.fcount < t.cfg.ipf :=
  ⟨_, busy_inv, by decide, rfl, by decide⟩

theorem witness_WaitingMachineKeepsItsState :
    ∃ s : State, s.cfg.wf ∧ s.phase = .waitKey ∧ s.dt = 5 := ⟨{ busy with phase := .waitKey, dt := 5 }, by decide⟩

/-- The last range that fits and the first that does not; in a memory with bytes listed. -/
theorem witness_MemReadAndMemWriteFollowTheirRules :
    ∃ s : State, Memory.wf s.cfg s.mem ∧ s.mem ≠ [] ∧ 0xFFF + [(1 : Byte)].length = s.cfg.memBytes ∧
      s.cfg.memBytes < 0xFFF + [(1 : Byte), 2].length := ⟨spinning, by decide⟩

/-- Stores that end at `PC`, start at `PC + 1`, cover both bytes from one below, as M16 store V0 alone at `PC`, and miss them; the
next word stands at the top of memory. -/
theorem witness_FetchSeesTheStoreBeforeIt_storeRegisters :
    ∀ c ∈ ([(0xFFC, 2), (0xFFF, 0), (0xFFD, 2), (0xFFE, 0), (0x300, 15)] : List (Word × Reg)),
      let s := { spinning with i := c.1, pc := 0xFFE }
      Memory.wf s.cfg s.mem ∧ indexAddr s + regCount c.2 ≤ s.cfg.memBytes ∧ s.pc.toNat + 2 = s.cfg.memBytes :=
  forall_of_all (by decide)

/-- The digits at `PC - 2`, `PC - 1`, `PC`, `PC + 1`, and far off. -/
theorem witness_FetchSeesTheStoreBeforeIt_loadBcd :
    ∀ a ∈ ([0x400, 0x401, 0x402, 0x403, 0xFFD] : List Word),
      let s := { spinning with i := a, pc := 0x402 }
      Memory.wf s.cfg s.mem ∧ indexAddr s + 3 ≤ s.cfg.memBytes ∧ s.pc.toNat + 2 ≤ s.cfg.memBytes :=
  forall_of_all (by decide)

theorem witness_OnlyStoresChangeMemoryAndOnlyDrawingChangesPixels :
    ∃ t, exec (.loadRegisters 0) busy = .next t ∧
      (∀ x, Instr.loadRegisters 0 ≠ .loadBcd x) ∧ (∀ x, Instr.loadRegisters 0 ≠ .storeRegisters x) ∧
      Instr.loadRegisters 0 ≠ .cls ∧ ∀ x y n, Instr.loadRegisters 0 ≠ .draw x y n :=
  ⟨_, rfl, nofun, nofun, nofun, nofun⟩

theorem witness_OnlyNamedRegistersAreWritten :
    ∃ t, exec (.loadRegisters 0) busy = .next t ∧ (1 : Reg) ∉ regsWritten (.loadRegisters 0) := ⟨_, rfl, by decide⟩

theorem witness_OnlyControlTransfersWritePc :
    ∃ t, exec (.addI 1) busy = .next t ∧ writesPc (.addI 1) = false := ⟨_, rfl, rfl⟩

/-- An instruction that cannot fault, and one that changes the fault record. -/
theorem witness_SpecialRegistersHaveTheirWriters :
    (∃ t, exec (.or 1 2) busy = .next t ∧ mayFault (.or 1 2) = false ∧ writesPc (.or 1 2) = false) ∧
    (∃ t, exec .ret busy = .next t ∧ t.fault ≠ busy.fault) := ⟨⟨_, rfl, rfl, rfl⟩, ⟨_, rfl, by decide⟩⟩

/-- `Call` with one entry left, and with none. -/
theorem witness_CallPushesTheReturnAddress :
    (∃ s : State, s.cfg.wf ∧ s.stack.length = s.cfg.stackDepth ∧ s.sp.toNat + 1 = s.cfg.stackDepth) ∧
    (fullStack.cfg.wf ∧ fullStack.stack.length = fullStack.cfg.stackDepth ∧ fullStack.sp.toNat = fullStack.cfg.stackDepth) :=
  ⟨⟨{ fullStack with sp := 15 }, by decide⟩, by decide⟩

/-- `Ret` from a full stack, and on an empty one. -/
theorem witness_RetPopsTheReturnAddress :
    fullStack.sp.toNat ≤ fullStack.stack.length ∧ fullStack.sp ≠ 0 ∧ busy.sp.toNat ≤ busy.stack.length ∧ busy.sp = 0 := by
  decide

theorem witness_RetComesBackAfterItsCall :
    ∃ t : State, busy.cfg.wf ∧ busy.stack.length = busy.cfg.stackDepth ∧ busy.sp.toNat < busy.cfg.stackDepth ∧
      exec (.call 0x300) busy = .next t ∧ { busy with sp := t.sp, stack := t.stack }.sp = t.sp :=
  ⟨_, by decide, by decide, by decide, rfl, rfl⟩

theorem witness_LoadFontPointsAtTheGlyph :
    ∃ s : State, (reg s 0).toNat = (15 : Fin 16).val ∧ s.mem = (State.resetWith s.cfg).mem := ⟨regs [(0, 15)], by decide⟩

/-- `I` at the last address for three bytes, and one above. -/
theorem witness_LoadBcdStoresThreeDigits :
    (∃ s : State, Memory.wf s.cfg s.mem ∧ indexAddr s + 3 = s.cfg.memBytes) ∧
    (∃ s : State, Memory.wf s.cfg s.mem ∧ indexAddr s + 3 = s.cfg.memBytes + 1) :=
  ⟨⟨{ spinning with i := 0xFFD }, by decide⟩, ⟨{ spinning with i := 0xFFE }, by decide⟩⟩

/-- `I` at the last address for sixteen bytes, and one above. -/
theorem witness_StoreRegistersCopiesToMemory :
    (∃ s : State, Memory.wf s.cfg s.mem ∧ indexAddr s + regCount 0xF = s.cfg.memBytes) ∧
    (∃ s : State, Memory.wf s.cfg s.mem ∧ indexAddr s + regCount 0xF = s.cfg.memBytes + 1) :=
  ⟨⟨{ spinning with i := 0xFF0 }, by decide⟩, ⟨{ spinning with i := 0xFF1 }, by decide⟩⟩

theorem witness_LoadRegistersCopiesFromMemory :
    indexAddr busy + regCount 0 = busy.cfg.memBytes ∧ indexAddr busy + regCount 1 = busy.cfg.memBytes + 1 := by decide

theorem witness_StoredRegistersLoadBack :
    ∃ t u : State, Memory.wf busy.cfg busy.mem ∧ indexAddr busy + regCount 0 ≤ busy.cfg.memBytes ∧
      exec (.storeRegisters 0) busy = .next t ∧ u.cfg = t.cfg ∧ u.mem = t.mem ∧ u.i = t.i ∧ u.x ≠ t.x :=
  ⟨_, { busy with x := Vector.replicate 16 0xAA }, by decide, by decide, rfl, rfl, rfl, rfl, by decide⟩

/-- A sprite that ends at the last byte of memory and covers a pixel, and one that ends past it. -/
theorem witness_DrawInvertsPixelsAndReportsCollision :
    indexAddr busy + (1 : Fin 16).val = busy.cfg.memBytes ∧ indexAddr busy + (2 : Fin 16).val = busy.cfg.memBytes + 1 ∧
    SpriteCovers [0x01] 57 32 0 0 ∧ pixel (screen [(0, 0x80)]) 0 0 = true ∧ ¬ SpriteCovers [] 57 32 0 0 :=
  ⟨by decide, by decide, ⟨0, 0x01, rfl, 7, by decide, by decide, by decide, by decide⟩, by decide,
    fun ⟨_, _, h, _⟩ => by simp at h⟩

theorem witness_DrawingTwiceRestoresTheScreen : (List.replicate 15 (0xFF : Byte)).length ≤ 15 := by decide

/-- The last key, down and up, and the first number that names none. -/
theorem witness_KeySkipsReadTheSampledKeys :
    (reg (regs [(1, 0x0F)]) 1).toNat = (15 : Fin 16).val ∧ 0xF < (reg busy 1).toNat ∧ (keyDown 15)[(15 : Fin 16)] = true ∧
    (keyDown 14)[(15 : Fin 16)] = false := by decide

theorem witness_LoadKeyWaitsAndAPressCompletesIt :
    ∃ u : State, u.phase = .waitKey ∧ u.waitreg = vf := ⟨{ busy with phase := .waitKey, waitreg := vf }, by decide⟩

end Sys2Proof.Tests
end

section
/-! PROOFS. The memory primitives (spec/20_memory.md R50, R51). -/

namespace Sys2Proof.Machine

/-- Each byte `MemRead` gives is the byte of memory at its place in the range (R50). -/
theorem eq_readByte_of_readRange_getElem? {s : State} {addr n k : Nat} {b : Byte}
    (h : (Memory.readRange s.cfg s.mem addr n)[k]? = some b) : b = readByte s (addr + k) := by
  rw [Memory.readRange_getElem?] at h
  split at h
  · exact (Option.some.inj h).symm
  · cases h

/-- A stored byte is read back from its place in the range (R51). -/
theorem readByte_writeRange_inside {s : State} (hs : Memory.wf s.cfg s.mem) (addr : Nat) {bytes : List Byte} {k : Nat}
    {b : Byte} (h : bytes[k]? = some b) :
    readByte { s with mem := Memory.writeRange s.cfg s.mem addr bytes } (addr + k) = b :=
  Memory.read_writeRange_inside hs.1 addr bytes h

/-- Settles O29, from what each primitive answers on the two sides of the bounds check and the laws of a range. -/
theorem memReadAndMemWriteFollowTheirRules : Obligations.MemReadAndMemWriteFollowTheirRules := by
  unfold Obligations.MemReadAndMemWriteFollowTheirRules
  constructor
  · intro s addr n
    refine ⟨memRead_error, fun hfit => ⟨_, memRead_ok hfit, Memory.readRange_length s.mem addr n, ?_⟩⟩
    exact fun k b => eq_readByte_of_readRange_getElem?
  · intro s addr bytes hs
    refine ⟨memWrite_error, fun hfit => ⟨_, memWrite_ok hfit, writeRange_onlyBytes s addr bytes, ?_⟩⟩
    exact fun k b => readByte_writeRange_inside hs addr

end Sys2Proof.Machine
end

section
/-! PROOFS. The reserved family `0NNN` (spec/30_encoding.md R78). -/

namespace Sys2Proof

/-- The words below 0x1000 are those whose primary selector is 0. -/
theorem fieldN1_eq_zero_iff_toNat_lt (w : Word) : fieldN1 w = 0 ↔ w.toNat < 0x1000 := by
  rw [← BitVec.toNat_inj, fieldN1_toNat]
  exact Nat.div_eq_zero_iff_lt (by decide)

/-- The group `N1` = 0 is tried first (R76). -/
theorem decodeWord_of_fieldN1_eq_zero {w : Word} (h : fieldN1 w = 0) : decodeWord w = .ok (decodeGroup0 w) :=
  if_pos h

/-- Past `Cls` and `Ret`, the group `N1` = 0 holds `Sys` alone (R75, R76). -/
theorem decodeGroup0_eq_sys {w : Word} (hcls : w ≠ 0x00E0) (hret : w ≠ 0x00EE) :
    decodeGroup0 w = .sys (fieldNNN w) := by
  rw [decodeGroup0, if_neg hcls, if_neg hret]

end Sys2Proof

namespace Sys2Proof.Machine

/-- `Sys` is a no-op, whatever its field (R120). -/
theorem exec_sys (nnn : Addr12) (s : State) : exec (.sys nnn) s = .next s := rfl

/-- Settles O5: the selector of the word is 0, so its group is the first, and its field is the whole word. -/
theorem reservedFamilyDoesNothing : Obligations.ReservedFamilyDoesNothing := by
  unfold Obligations.ReservedFamilyDoesNothing
  intro w hlt hcls hret
  have hfield : (fieldNNN w).toNat = w.toNat := by
    rw [fieldNNN_toNat, Nat.mod_eq_of_lt hlt]
  have hdecode : decodeWord w = .ok (.sys (fieldNNN w)) := by
    rw [decodeWord_of_fieldN1_eq_zero ((fieldN1_eq_zero_iff_toNat_lt w).mpr hlt), decodeGroup0_eq_sys hcls hret]
  exact ⟨fieldNNN w, hfield, hdecode, exec_sys (fieldNNN w)⟩

end Sys2Proof.Machine
end

section
/-! PROOFS. Loads, arithmetic and shifts: the instructions that write a result to Vx and a flag to VF (spec/41_alu.md). -/

namespace Sys2Proof.Machine

/-! ## The flags as numbers (R101) -/

theorem flagByte_carryFlag_toNat (a b : Byte) :
    (flagByte (carryFlag a b)).toNat = if a.toNat + b.toNat > 255 then 1 else 0 := by
  simp only [flagByte_toNat, carryFlag, decide_eq_true_eq]

theorem flagByte_greaterFlag_toNat (minuend subtrahend : Byte) :
    (flagByte (greaterFlag minuend subtrahend)).toNat = if minuend.toNat > subtrahend.toNat then 1 else 0 := by
  simp only [flagByte_toNat, greaterFlag, decide_eq_true_eq]

/-- A flag that is a bit of a byte is that bit of its number. -/
theorem flagByte_getLsbD_toNat (a : Byte) (k : Nat) : (flagByte (a.getLsbD k)).toNat = a.toNat / 2 ^ k % 2 := by
  rw [flagByte_toNat, BitVec.getLsbD, ← Nat.toNat_testBit]
  cases a.toNat.testBit k <;> rfl

theorem flagByte_shiftRightFlag_toNat (a : Byte) : (flagByte (shiftRightFlag a)).toNat = a.toNat % 2 := by
  rw [shiftRightFlag, flagByte_getLsbD_toNat, pow_zero, Nat.div_one]

/-- Bit 7 is the top bit of a byte, so nothing stands above it. -/
theorem flagByte_shiftLeftFlag_toNat (a : Byte) : (flagByte (shiftLeftFlag a)).toNat = a.toNat / 128 := by
  have hbit : a.toNat / 128 < 2 := Nat.div_lt_of_lt_mul a.isLt
  rw [shiftLeftFlag, flagByte_getLsbD_toNat]
  exact Nat.mod_eq_of_lt hbit

/-! ## The results as numbers -/

/-- The difference modulo 256, with the borrow added before the subtraction. -/
theorem byte_sub_toNat (a b : Byte) : (a - b).toNat = (a.toNat + 256 - b.toNat) % 256 := by
  have hb : b.toNat ≤ 256 := b.isLt.le
  rw [Nat.add_sub_assoc hb a.toNat]
  exact BitVec.toNat_sub' a b

theorem byte_shiftRight_one_toNat (a : Byte) : (a >>> 1).toNat = a.toNat / 2 := by
  rw [BitVec.toNat_ushiftRight, Nat.shiftRight_one]

theorem byte_shiftLeft_one_toNat (a : Byte) : (a <<< 1).toNat = 2 * a.toNat % 256 := by
  rw [BitVec.toNat_shiftLeft, Nat.shiftLeft_eq, pow_one, Nat.mul_comm]

/-! ## The instructions -/

/-- An instruction that answers the result and flag writes of R95 writes the numbers its result and its flag stand for. -/
theorem exists_next_writesResultAndFlag {i : Instr} {s : State} {x : Reg} {v : Byte} {f : Bool} {result flag : Nat}
    (hexec : exec i s = .next (writeResultAndFlag x v f s)) (hresult : v.toNat = result)
    (hflag : (flagByte f).toNat = flag) : ∃ t, exec i s = .next t ∧ WritesResultAndFlag x result flag s t := by
  rw [flagByte_toNat] at hflag
  subst hresult hflag
  exact ⟨_, hexec, writeResultAndFlag_spec x v f s⟩

theorem exec_loadImm (x : Reg) (kk : Byte) (s : State) : exec (.loadImm x kk) s = .next (writeReg x kk s) := rfl

theorem exec_addReg (x y : Reg) (s : State) :
    exec (.addReg x y) s =
      .next (writeResultAndFlag x (reg s x + reg s y) (carryFlag (reg s x) (reg s y)) s) := rfl

theorem exec_subVx (x y : Reg) (s : State) :
    exec (.subVx x y) s =
      .next (writeResultAndFlag x (reg s x - reg s y) (greaterFlag (reg s x) (reg s y)) s) := rfl

theorem exec_subRev (x y : Reg) (s : State) :
    exec (.subRev x y) s =
      .next (writeResultAndFlag x (reg s y - reg s x) (greaterFlag (reg s y) (reg s x)) s) := rfl

/-- The field `Y` is ignored (R79). -/
theorem exec_shiftRight (x y : Reg) (s : State) :
    exec (.shiftRight x y) s = .next (writeResultAndFlag x (reg s x >>> 1) (shiftRightFlag (reg s x)) s) := rfl

/-- The field `Y` is ignored (R79). -/
theorem exec_shiftLeft (x y : Reg) (s : State) :
    exec (.shiftLeft x y) s = .next (writeResultAndFlag x (reg s x <<< 1) (shiftLeftFlag (reg s x)) s) := rfl

/-! ## The obligations -/

/-- Settles O35: the instruction is one register write, whose frame is known. -/
theorem loadImmediateWritesItsRegister : Obligations.LoadImmediateWritesItsRegister := by
  unfold Obligations.LoadImmediateWritesItsRegister
  intro x kk s
  exact ⟨_, exec_loadImm x kk s, reg_writeReg_same x kk s, onlyRegs_writeReg x kk s⟩

/-- Settles O38: byte addition is the sum modulo 256, and the flag is that sum's carry. -/
theorem addRegisterGivesSumAndCarry : Obligations.AddRegisterGivesSumAndCarry := by
  unfold Obligations.AddRegisterGivesSumAndCarry
  intro x y s
  exact exists_next_writesResultAndFlag (exec_addReg x y s) (BitVec.toNat_add _ _) (flagByte_carryFlag_toNat _ _)

/-- Settles O39: the two subtractions are one, with minuend and subtrahend exchanged. -/
theorem subtractionsGiveDifferenceAndStrictFlag : Obligations.SubtractionsGiveDifferenceAndStrictFlag := by
  unfold Obligations.SubtractionsGiveDifferenceAndStrictFlag
  intro x y s
  constructor
  · exact exists_next_writesResultAndFlag (exec_subVx x y s) (byte_sub_toNat _ _) (flagByte_greaterFlag_toNat _ _)
  · exact exists_next_writesResultAndFlag (exec_subRev x y s) (byte_sub_toNat _ _) (flagByte_greaterFlag_toNat _ _)

/-- Settles O40: the shifts halve and double Vx, and the bit shifted out is its lowest and its highest. -/
theorem shiftsGiveTheBitShiftedOut : Obligations.ShiftsGiveTheBitShiftedOut := by
  unfold Obligations.ShiftsGiveTheBitShiftedOut
  intro x y s
  constructor
  · exact exists_next_writesResultAndFlag (exec_shiftRight x y s) (byte_shiftRight_one_toNat _)
      (flagByte_shiftRightFlag_toNat _)
  · exact exists_next_writesResultAndFlag (exec_shiftLeft x y s) (byte_shiftLeft_one_toNat _)
      (flagByte_shiftLeftFlag_toNat _)

end Sys2Proof.Machine
end

section
/-! PROOFS. Control transfer (spec/42_control_flow.md). -/

namespace Sys2Proof.Machine

/-- Extending a 12-bit address by zeros keeps its number. -/
theorem zextAddr_toNat (nnn : Addr12) : (zextAddr nnn).toNat = nnn.toNat :=
  BitVec.toNat_setWidth_of_le (by decide)

/-- Writing `PC` leaves every other part of the state as it was. -/
theorem setPc_frame (a : Word) (s : State) : setPc a s = { s with pc := (setPc a s).pc } := rfl

/-- `Jmp` is one write of `PC` (R121). -/
theorem exec_jmp (nnn : Addr12) (s : State) : exec (.jmp nnn) s = .next (setPc (zextAddr nnn) s) := rfl

/-- Settles O41: `Sys` answers the state it got, and `Jmp` is one write of `PC`, whose frame is known. -/
theorem sysDoesNothingAndJmpWritesOnlyPc : Obligations.SysDoesNothingAndJmpWritesOnlyPc := by
  unfold Obligations.SysDoesNothingAndJmpWritesOnlyPc
  intro nnn s
  have hpc : (setPc (zextAddr nnn) s).pc.toNat = nnn.toNat := by
    rw [setPc_pc, zextAddr_toNat]
  exact ⟨exec_sys nnn s, setPc (zextAddr nnn) s, exec_jmp nnn s, setPc_frame (zextAddr nnn) s, hpc⟩

end Sys2Proof.Machine
end

section
/-! PROOFS. The index register and the stores at it (spec/43_index_memory.md). -/

namespace Sys2Proof.Machine

/-! ## The index register -/

/-- Writing `I` leaves every other part of the state as it was. -/
theorem setIndex_frame (a : Word) (s : State) : setIndex a s = { s with i := (setIndex a s).i } := rfl

/-- `LoadI` is one write of `I` (R141). -/
theorem exec_loadI (nnn : Addr12) (s : State) : exec (.loadI nnn) s = .next (setIndex (zextAddr nnn) s) := rfl

/-- Settles O46: `LoadI` is one write of `I`, whose frame is known. -/
theorem loadIWritesOnlyTheIndex : Obligations.LoadIWritesOnlyTheIndex := by
  unfold Obligations.LoadIWritesOnlyTheIndex
  intro nnn s
  have hindex : (setIndex (zextAddr nnn) s).i.toNat = nnn.toNat := by
    rw [setIndex_i, zextAddr_toNat]
  exact ⟨_, exec_loadI nnn s, setIndex_frame (zextAddr nnn) s, hindex⟩

theorem flagByte_indexFlag_toNat (index : Word) (a : Byte) :
    (flagByte (indexFlag index a)).toNat = if index.toNat + a.toNat > 0xFFF then 1 else 0 := by
  rw [flagByte_toNat, indexFlag, indexSum]
  simp only [decide_eq_true_eq]

/-- The sum wrapped to 12 bits needs no second wrap to fit the 16 bits of `I`. -/
theorem wrappedIndexSum_toNat (index : Word) (a : Byte) :
    (BitVec.ofNat 16 (indexSum index a % 0x1000)).toNat = (index.toNat + a.toNat) % 0x1000 := by
  rw [BitVec.toNat_ofNat, indexSum]
  exact Nat.mod_mod_of_dvd' (by decide)

/-- `AddI` reads `I` and Vx, writes `I`, and writes the flag last (R94, R142). -/
theorem exec_addI (x : Reg) (s : State) :
    exec (.addI x) s = .next (writeFlag (indexFlag s.i (reg s x))
      (setIndex (BitVec.ofNat 16 (indexSum s.i (reg s x) % 0x1000)) s)) := rfl

/-- A write of `I` and then of the flag changes `I` and the registers alone. -/
theorem writeFlag_setIndex_frame (f : Bool) (a : Word) (s : State) :
    writeFlag f (setIndex a s) =
      { s with i := (writeFlag f (setIndex a s)).i, x := (writeFlag f (setIndex a s)).x } := rfl

/-- Settles O48: sum and flag are taken from the state before the two writes, so Vx may be VF itself. -/
theorem addIndexWrapsAndSetsTheFlag : Obligations.AddIndexWrapsAndSetsTheFlag := by
  unfold Obligations.AddIndexWrapsAndSetsTheFlag
  intro x s
  refine ⟨_, exec_addI x s, writeFlag_setIndex_frame _ _ s, fun r hr => ?_, ?_, ?_⟩
  · rw [reg_writeFlag_other _ _ hr, reg_setIndex]
  · rw [writeFlag_i, setIndex_i, wrappedIndexSum_toNat]
  · rw [reg_writeFlag_vf, flagByte_indexFlag_toNat]

/-! ## The three decimal digits -/

/-- A byte is below 1000, so its hundreds are a digit as they stand. -/
theorem byte_hundreds_mod_ten (a : Byte) : a.toNat / 100 % 10 = a.toNat / 100 := by
  have hbyte : a.toNat < 256 := a.isLt
  omega

/-- Stored digits are read back, hundreds first: place `k` holds the digit of weight `10 ^ (2 - k)` (R144). -/
theorem readByte_writeRange_bcdDigits {s : State} (hs : Memory.wf s.cfg s.mem) (addr : Nat) (a : Byte) {k : Nat}
    (hk : k < 3) :
    (readByte { s with mem := Memory.writeRange s.cfg s.mem addr (bcdDigits a) } (addr + k)).toNat =
      a.toNat / 10 ^ (2 - k) % 10 := by
  obtain ⟨d, hget, hdigit⟩ := bcdDigits_getElem? a hk
  rw [readByte_writeRange_inside hs addr hget, hdigit]

theorem exec_loadBcd (x : Reg) (s : State) : exec (.loadBcd x) s = execLoadBcd x s := rfl

/-- Settles O49: the instruction stores the digits or takes the fault, and the bound says which. -/
theorem loadBcdStoresThreeDigits : Obligations.LoadBcdStoresThreeDigits := by
  unfold Obligations.LoadBcdStoresThreeDigits
  intro x s hs
  rw [exec_loadBcd]
  rcases execLoadBcd_cases x s with ⟨hfit, hexec⟩ | ⟨hpast, hexec⟩
  · refine ⟨fun _ => ⟨_, hexec, writeRange_onlyBytes s (indexAddr s) (bcdDigits (reg s x)), ?_, ?_, ?_⟩,
      fun hpast => absurd hfit hpast.not_ge⟩
    · exact (readByte_writeRange_bcdDigits hs _ _ (k := 0) (by decide)).trans (byte_hundreds_mod_ten _)
    · exact readByte_writeRange_bcdDigits hs _ _ (k := 1) (by decide)
    · rw [readByte_writeRange_bcdDigits hs _ _ (k := 2) (by decide), Nat.pow_zero, Nat.div_one]
  · exact ⟨fun hfit => absurd hfit hpast.not_ge, fun _ => ⟨_, hexec, takeFault_halts _ s⟩⟩

end Sys2Proof.Machine
end

section
/-! PROOFS. The display (spec/44_display.md): clearing it, and what a drawing operation inverts and reports. The per-pixel and the packed composer are both held to that one description, so they agree. -/

namespace Sys2Proof.Machine

/-! ## Clearing the screen (R151) -/

theorem pixel_blankScreen (r : Fin 32) (c : Fin 64) : pixel blankScreen r c = false := by
  simp [pixel, blankScreen]

theorem exec_cls (s : State) : exec .cls s = .next { s with fb := blankScreen } := rfl

/-- Settles O53: the screen is replaced by the blank one, whose every pixel is 0. -/
theorem clsClearsEveryPixel : Obligations.ClsClearsEveryPixel := by
  unfold Obligations.ClsClearsEveryPixel
  intro s
  exact ⟨_, exec_cls s, rfl, pixel_blankScreen⟩

/-! ## What a drawing operation does to the canvas (R152, R153) -/

/-- The canvas `d'` is `d` with exactly the pixels of `covers` inverted, and a collision noted if one of them was lit. -/
structure Inverts (covers : Fin 32 → Fin 64 → Prop) (d d' : Canvas) : Prop where
  covered : ∀ r c, covers r c → pixel d'.fb r c = !pixel d.fb r c
  uncovered : ∀ r c, ¬ covers r c → pixel d'.fb r c = pixel d.fb r c
  coll_iff : d'.coll = true ↔ d.coll = true ∨ ∃ r c, covers r c ∧ pixel d.fb r c = true

/-- The pixels that are inverted determine the canvas. -/
theorem Inverts.unique {covers : Fin 32 → Fin 64 → Prop} {d e e' : Canvas} (h : Inverts covers d e)
    (h' : Inverts covers d e') : e = e' := by
  have hfb : e.fb = e'.fb := framebuffer_ext fun r c => by
    by_cases hc : covers r c
    · rw [h.covered r c hc, h'.covered r c hc]
    · rw [h.uncovered r c hc, h'.uncovered r c hc]
  have hcoll : e.coll = e'.coll := Bool.eq_iff_iff.mpr (h.coll_iff.trans h'.coll_iff.symm)
  cases e; cases e'
  exact congrArg₂ Canvas.mk hfb hcoll

theorem Inverts.congr {covers covers' : Fin 32 → Fin 64 → Prop} {d e : Canvas}
    (hiff : ∀ r c, covers r c ↔ covers' r c) (h : Inverts covers d e) : Inverts covers' d e := by
  have heq : covers = covers' := funext₂ fun r c => propext (hiff r c)
  exact heq ▸ h

/-- Two drawings on disjoint sets of pixels are one drawing on both: the first changes no pixel that the second looks at. -/
theorem Inverts.trans {covers covers' : Fin 32 → Fin 64 → Prop} {d e f : Canvas}
    (hdisjoint : ∀ r c, covers r c → ¬ covers' r c) (h : Inverts covers d e) (h' : Inverts covers' e f) :
    Inverts (fun r c => covers r c ∨ covers' r c) d f where
  covered r c := by
    rintro (hc | hc')
    · rw [h'.uncovered r c (hdisjoint r c hc), h.covered r c hc]
    · rw [h'.covered r c hc', h.uncovered r c fun hc => hdisjoint r c hc hc']
  uncovered r c hneither := by
    obtain ⟨hc, hc'⟩ := not_or.mp hneither
    rw [h'.uncovered r c hc', h.uncovered r c hc]
  coll_iff := by
    have hlit : (∃ r c, covers' r c ∧ pixel e.fb r c = true) ↔ ∃ r c, covers' r c ∧ pixel d.fb r c = true :=
      exists₂_congr fun r c => and_congr_right fun hc' => by
        rw [h.uncovered r c fun hc => hdisjoint r c hc hc']
    simp only [h'.coll_iff, h.coll_iff, hlit, or_and_right, exists_or, or_assoc]

/-! ## The per-pixel composer -/

theorem hits_eq_true_iff {bits : List SpriteBit} {r : Fin 32} {c : Fin 64} :
    hits bits r c = true ↔ (⟨true, r, c⟩ : SpriteBit) ∈ bits := by
  simp only [hits, List.any_eq_true, Bool.and_eq_true, decide_eq_true_eq]
  constructor
  · rintro ⟨⟨set, row, col⟩, hmem, hset, hrow, hcol⟩
    subst hset hrow hcol
    exact hmem
  · exact fun hmem => ⟨_, hmem, rfl, rfl, rfl⟩

/-- Sprite bits on distinct pixels invert the pixels that the set ones land on. -/
theorem drawBits_inverts {bits : List SpriteBit} (h : Apart bits) (d : Canvas) :
    Inverts (fun r c => (⟨true, r, c⟩ : SpriteBit) ∈ bits) d (drawBits bits d) where
  covered r c hc := by rw [pixel_drawBits h, hits_eq_true_iff.mpr hc, Bool.bne_true]
  uncovered r c hc := by
    rw [pixel_drawBits h, Bool.eq_false_iff.mpr (mt hits_eq_true_iff.mp hc), Bool.bne_false]
  coll_iff := by
    rw [coll_drawBits h, Bool.or_eq_true, List.any_eq_true]
    refine or_congr_right ⟨?_, ?_⟩
    · rintro ⟨⟨set, row, col⟩, hmem, hlit⟩
      obtain ⟨hset, hpixel⟩ := Bool.and_eq_true_iff.mp hlit
      subst hset
      exact ⟨row, col, hmem, hpixel⟩
    · rintro ⟨r, c, hmem, hpixel⟩
      exact ⟨_, hmem, hpixel⟩

theorem set_mem_spriteBits_iff {x0 y0 : Nat} {rows : List Byte} {r : Fin 32} {c : Fin 64} :
    (⟨true, r, c⟩ : SpriteBit) ∈ spriteBits x0 y0 0 rows ↔ SpriteCovers rows x0 y0 r c := by
  simp only [mem_spriteBits, SpriteCovers, SpriteBit.mk.injEq, Fin.ext_iff, wrapRow_val, wrapCol_val, Nat.zero_add]
  constructor
  · rintro ⟨k, b, hk, j, hj, hset, hrow, hcol⟩
    exact ⟨k, b, hk, j, hj, hset.symm, hrow.symm, hcol.symm⟩
  · rintro ⟨k, b, hk, j, hj, hset, hrow, hcol⟩
    exact ⟨k, b, hk, j, hj, hset.symm, hrow.symm, hcol.symm⟩

/-- A sprite of at most 32 rows, as every sprite of `Draw` is, inverts the pixels it covers (R152, R153). -/
theorem drawSprite_inverts (x0 y0 : Nat) {rows : List Byte} (hrows : rows.length ≤ 32) (fb : Framebuffer) :
    Inverts (SpriteCovers rows x0 y0) { fb := fb, coll := false } (drawSprite x0 y0 rows fb) := by
  rw [drawSprite_eq]
  exact (drawBits_inverts (spriteBits_apart x0 y0 0 rows hrows) _).congr fun r c => set_mem_spriteBits_iff

/-! ## The instruction `Draw` -/

theorem exec_draw (x y : Reg) (n : Fin 16) (s : State) : exec (.draw x y n) s = execDraw x y n s := rfl

/-- `Draw` changes the screen and the registers alone. -/
theorem drawn_frame (x y : Reg) (rows : List Byte) (s : State) :
    drawn x y rows s = { s with fb := (drawn x y rows s).fb, x := (drawn x y rows s).x } := rfl

theorem drawn_fb (x y : Reg) (rows : List Byte) (s : State) :
    (drawn x y rows s).fb = (drawSprite (reg s x).toNat (reg s y).toNat rows s.fb).fb := rfl

theorem reg_drawn_other (x y : Reg) (rows : List Byte) (s : State) {r : Reg} (h : r ≠ vf) :
    reg (drawn x y rows s) r = reg s r :=
  reg_writeFlag_other _ _ h

theorem reg_drawn_vf_toNat (x y : Reg) (rows : List Byte) (s : State) :
    (reg (drawn x y rows s) vf).toNat =
      if (drawSprite (reg s x).toNat (reg s y).toNat rows s.fb).coll then 1 else 0 := by
  rw [drawn, reg_writeFlag_vf, flagByte_toNat]

/-- Settles O54: the sprite read has at most 15 rows, so drawing it inverts what it covers; a sprite past the end of memory is
the fault. -/
theorem drawInvertsPixelsAndReportsCollision : Obligations.DrawInvertsPixelsAndReportsCollision := by
  unfold Obligations.DrawInvertsPixelsAndReportsCollision
  intro x y n s
  rw [exec_draw]
  rcases execDraw_cases x y n s with ⟨hfit, hexec⟩ | ⟨hpast, hexec⟩
  · refine ⟨fun _ => ⟨_, _, hexec, memRead_ok hfit, drawn_frame x y _ s, fun r => reg_drawn_other x y _ s, ?_⟩,
      fun hpast => absurd hfit hpast.not_ge⟩
    have hrows : (Memory.readRange s.cfg s.mem (indexAddr s) n.val).length ≤ 32 := by
      rw [Memory.readRange_length]
      omega
    have hdraw := drawSprite_inverts (reg s x).toNat (reg s y).toNat hrows s.fb
    rw [drawn_fb, reg_drawn_vf_toNat]
    refine ⟨hdraw.covered, hdraw.uncovered, fun hlit => ?_, fun hdark => ?_⟩
    · exact if_pos (hdraw.coll_iff.mpr (.inr hlit))
    · refine if_neg fun hcoll => ?_
      obtain hbefore | ⟨row, col, hcover, hpixel⟩ := hdraw.coll_iff.mp hcoll
      · exact Bool.false_ne_true hbefore
      · exact Bool.false_ne_true ((hdark row col hcover).symm.trans hpixel)
  · exact ⟨fun hfit => absurd hfit hpast.not_ge, fun _ => ⟨_, hexec, takeFault_halts _ s⟩⟩

/-! ## The packed composer (R154) -/

/-- The byte `b`, laid over the framebuffer's byte `k`, has a set bit on pixel `(r, c)`. -/
def ByteCovers (k : Fin 256) (b : Byte) (r : Fin 32) (c : Fin 64) : Prop :=
  pixelByte r c = k ∧ b.getLsbD (7 - c.val % 8) = true

/-- The sprite row `b`, drawn at column `x0` of row `row`, has a set bit on pixel `(r, c)`. -/
def RowCovers (x0 : Nat) (row : Fin 32) (b : Byte) (r : Fin 32) (c : Fin 64) : Prop :=
  r = row ∧ ∃ j < 8, b.getLsbD (7 - j) = true ∧ (x0 + j) % 64 = c.val

theorem drawRow_inverts (x0 : Nat) (row : Fin 32) (b : Byte) (d : Canvas) :
    Inverts (RowCovers x0 row b) d (drawRow x0 row b d) := by
  rw [drawRow_eq]
  refine (drawBits_inverts (rowBits_apart x0 row b) d).congr fun r c => ?_
  rw [mem_rowBits, RowCovers]
  simp only [SpriteBit.mk.injEq, Fin.ext_iff, wrapCol_val]
  constructor
  · rintro ⟨j, hj, hset, hrow, hcol⟩
    exact ⟨hrow, j, hj, hset.symm, hcol.symm⟩
  · rintro ⟨hrow, j, hj, hset, hcol⟩
    exact ⟨j, hj, hset.symm, hrow, hcol.symm⟩

theorem pixel_xorByte_same (b : Byte) (d : Canvas) (r : Fin 32) (c : Fin 64) :
    pixel (xorByte (pixelByte r c) b d).fb r c = (pixel d.fb r c != b.getLsbD (7 - c.val % 8)) := by
  simp [pixel, xorByte]

theorem pixel_xorByte_other {k : Fin 256} (b : Byte) (d : Canvas) {r : Fin 32} {c : Fin 64} (h : pixelByte r c ≠ k) :
    pixel (xorByte k b d).fb r c = pixel d.fb r c := by
  have hk : k.val ≠ (pixelByte r c).val := fun e => h (Fin.ext e.symm)
  simp [pixel, xorByte, hk]

/-- Every bit of every byte of the framebuffer is a pixel. -/
theorem exists_pixelByte_eq (k : Fin 256) {i : Nat} (hi : i < 8) :
    ∃ r c, pixelByte r c = k ∧ 7 - c.val % 8 = i := by
  have hk := k.isLt
  refine ⟨⟨k.val / 8, by omega⟩, ⟨8 * (k.val % 8) + (7 - i), by omega⟩, Fin.ext ?_, ?_⟩
  · show 8 * (k.val / 8) + (8 * (k.val % 8) + (7 - i)) / 8 = k.val
    omega
  · show 7 - (8 * (k.val % 8) + (7 - i)) % 8 = i
    omega

/-- Two bytes overlap exactly when one bit is set in both. -/
theorem byte_and_ne_zero_iff (a b : Byte) :
    a &&& b ≠ 0 ↔ ∃ i < 8, a.getLsbD i = true ∧ b.getLsbD i = true := by
  constructor
  · intro hne
    by_contra hnone
    refine hne (BitVec.eq_of_getLsbD_eq fun i hi => ?_)
    have hclear : (a &&& b).getLsbD i = false := by
      rw [BitVec.getLsbD_and, ← Bool.not_eq_true, Bool.and_eq_true]
      exact fun hboth => hnone ⟨i, hi, hboth⟩
    exact hclear.trans BitVec.getLsbD_zero.symm
  · rintro ⟨i, -, ha, hb⟩ hzero
    have hbit := congrArg (BitVec.getLsbD · i) hzero
    simp [ha, hb] at hbit

/-- The collision test of one byte is the one of its pixels. -/
theorem overlap_ne_zero_iff (fb : Framebuffer) (k : Fin 256) (b : Byte) :
    (fb[k] &&& b) ≠ 0 ↔ ∃ r c, ByteCovers k b r c ∧ pixel fb r c = true := by
  rw [byte_and_ne_zero_iff]
  constructor
  · rintro ⟨i, hi, hlit, hset⟩
    obtain ⟨r, c, rfl, rfl⟩ := exists_pixelByte_eq k hi
    exact ⟨r, c, ⟨rfl, hset⟩, hlit⟩
  · rintro ⟨r, c, ⟨rfl, hset⟩, hlit⟩
    exact ⟨7 - c.val % 8, by omega, hlit, hset⟩

theorem xorByte_inverts (k : Fin 256) (b : Byte) (d : Canvas) : Inverts (ByteCovers k b) d (xorByte k b d) where
  covered r c := by
    rintro ⟨rfl, hset⟩
    rw [pixel_xorByte_same, hset, Bool.bne_true]
  uncovered r c hc := by
    by_cases hk : pixelByte r c = k
    · subst hk
      rw [pixel_xorByte_same, Bool.eq_false_iff.mpr fun hset => hc ⟨rfl, hset⟩, Bool.bne_false]
    · exact pixel_xorByte_other b d hk
  coll_iff := by
    rw [← overlap_ne_zero_iff, xorByte, Bool.or_eq_true, bne_iff_ne]

theorem pixelByte_eq_rowByte_iff {r row : Fin 32} {c : Fin 64} {cb : Nat} :
    pixelByte r c = rowByte row cb ↔ r = row ∧ c.val / 8 = cb % 8 := by
  simp only [Fin.ext_iff, pixelByte, rowByte]
  omega

/-- A sprite row split over two bytes covers the same pixels: sprite column `j` lands in the first byte while `x0 % 8 + j < 8`,
and in the second from there on. -/
theorem rowCovers_iff_byteCovers (x0 : Nat) (row : Fin 32) (b : Byte) (r : Fin 32) (c : Fin 64) :
    ByteCovers (rowByte row (x0 / 8 % 8)) (b >>> (x0 % 8)) r c ∨
      ByteCovers (rowByte row (x0 / 8 % 8 + 1)) (b <<< (8 - x0 % 8)) r c ↔ RowCovers x0 row b r c := by
  simp only [ByteCovers, RowCovers, pixelByte_eq_rowByte_iff, BitVec.getLsbD_ushiftRight, BitVec.getLsbD_shiftLeft,
    Bool.and_eq_true, Bool.not_eq_true', decide_eq_true_eq, decide_eq_false_iff_not]
  constructor
  · rintro (⟨⟨hrow, hbyte⟩, hset⟩ | ⟨⟨hrow, hbyte⟩, ⟨-, hcol⟩, hset⟩)
    · have hbit := BitVec.lt_of_getLsbD hset
      refine ⟨hrow, c.val % 8 - x0 % 8, by omega, ?_, by omega⟩
      rwa [show 7 - (c.val % 8 - x0 % 8) = x0 % 8 + (7 - c.val % 8) by omega]
    · refine ⟨hrow, c.val % 8 + 8 - x0 % 8, by omega, ?_, by omega⟩
      rwa [show 7 - (c.val % 8 + 8 - x0 % 8) = 7 - c.val % 8 - (8 - x0 % 8) by omega]
  · rintro ⟨hrow, j, hj, hset, hcol⟩
    by_cases hfirst : x0 % 8 + j < 8
    · refine .inl ⟨⟨hrow, by omega⟩, ?_⟩
      rwa [show x0 % 8 + (7 - c.val % 8) = 7 - j by omega]
    · refine .inr ⟨⟨hrow, by omega⟩, ⟨by omega, by omega⟩, ?_⟩
      rwa [show 7 - c.val % 8 - (8 - x0 % 8) = 7 - j by omega]

/-- Adjacent byte columns are distinct, also where the second wraps round the row. -/
theorem rowByte_succ_ne (row : Fin 32) (cb : Nat) : rowByte row cb ≠ rowByte row (cb + 1) := by
  simp only [ne_eq, Fin.ext_iff, rowByte]
  omega

theorem drawRowPacked_inverts (x0 : Nat) (row : Fin 32) (b : Byte) (d : Canvas) :
    Inverts (RowCovers x0 row b) d (drawRowPacked x0 row b d) :=
  have hfirst := xorByte_inverts (rowByte row (x0 / 8 % 8)) (b >>> (x0 % 8)) d
  have hsecond := xorByte_inverts (rowByte row (x0 / 8 % 8 + 1)) (b <<< (8 - x0 % 8)) _
  (hfirst.trans (fun _ _ hc hc' => rowByte_succ_ne row _ (hc.1.symm.trans hc'.1)) hsecond).congr
    (rowCovers_iff_byteCovers x0 row b)

theorem drawRowPacked_eq_drawRow (x0 : Nat) (row : Fin 32) (b : Byte) (d : Canvas) :
    drawRowPacked x0 row b d = drawRow x0 row b d :=
  (drawRowPacked_inverts x0 row b d).unique (drawRow_inverts x0 row b d)

theorem drawRowsPacked_eq_drawRows (x0 y0 r : Nat) (rows : List Byte) (d : Canvas) :
    drawRowsPacked x0 y0 r rows d = drawRows x0 y0 r rows d := by
  induction rows generalizing r d with
  | nil => rfl
  | cons b rest ih => rw [drawRowsPacked, drawRows, drawRowPacked_eq_drawRow, ih]

/-- Settles O55: row by row the two composers invert the same pixels, so they leave the same canvas. -/
theorem packedComposerIsThePixelComposer : Obligations.PackedComposerIsThePixelComposer := by
  unfold Obligations.PackedComposerIsThePixelComposer
  intro x0 y0 rows fb
  exact drawRowsPacked_eq_drawRows x0 y0 0 rows { fb := fb, coll := false }

end Sys2Proof.Machine
end

section
/-! PROOFS. The decoder against the encoder, the opcode map and the list of illegal words (spec/30_encoding.md R75 to R77). -/

namespace Sys2Proof

/-! ## The decoder by its primary selector (R76) -/

theorem nibble_cases : ∀ n : BitVec 4,
    n = 0x0 ∨ n = 0x1 ∨ n = 0x2 ∨ n = 0x3 ∨ n = 0x4 ∨ n = 0x5 ∨ n = 0x6 ∨ n = 0x7 ∨
    n = 0x8 ∨ n = 0x9 ∨ n = 0xA ∨ n = 0xB ∨ n = 0xC ∨ n = 0xD ∨ n = 0xE ∨ n = 0xF := by decide

/-- Everything the decoder can do with a word, by its primary selector. -/
theorem decodeWord_cases (w : Word) :
    (fieldN1 w = 0x0 ∧ decodeWord w = .ok (decodeGroup0 w)) ∨
    (fieldN1 w = 0x1 ∧ decodeWord w = .ok (.jmp (fieldNNN w))) ∨
    (fieldN1 w = 0x2 ∧ decodeWord w = .ok (.call (fieldNNN w))) ∨
    (fieldN1 w = 0x3 ∧ decodeWord w = .ok (.skipEqImm (fieldX w) (fieldKK w))) ∨
    (fieldN1 w = 0x4 ∧ decodeWord w = .ok (.skipNeImm (fieldX w) (fieldKK w))) ∨
    (fieldN1 w = 0x5 ∧ decodeWord w =
      if fieldN4 w = 0 then .ok (.skipEqReg (fieldX w) (fieldY w)) else .error (.illegal5 (fieldN4 w))) ∨
    (fieldN1 w = 0x6 ∧ decodeWord w = .ok (.loadImm (fieldX w) (fieldKK w))) ∨
    (fieldN1 w = 0x7 ∧ decodeWord w = .ok (.addImm (fieldX w) (fieldKK w))) ∨
    (fieldN1 w = 0x8 ∧ decodeWord w = decodeGroup8 (fieldX w) (fieldY w) (fieldN4 w)) ∨
    (fieldN1 w = 0x9 ∧ decodeWord w =
      if fieldN4 w = 0 then .ok (.skipNeReg (fieldX w) (fieldY w)) else .error (.illegal9 (fieldN4 w))) ∨
    (fieldN1 w = 0xA ∧ decodeWord w = .ok (.loadI (fieldNNN w))) ∨
    (fieldN1 w = 0xB ∧ decodeWord w = .ok (.jmpV0 (fieldNNN w))) ∨
    (fieldN1 w = 0xC ∧ decodeWord w = .ok (.rand (fieldX w) (fieldKK w))) ∨
    (fieldN1 w = 0xD ∧ decodeWord w = .ok (.draw (fieldX w) (fieldY w) (fieldN w))) ∨
    (fieldN1 w = 0xE ∧ decodeWord w = decodeGroupE (fieldX w) (fieldKK w)) ∨
    (fieldN1 w = 0xF ∧ decodeWord w = decodeGroupF (fieldX w) (fieldKK w)) := by
  unfold decodeWord
  rcases nibble_cases (fieldN1 w) with h | h | h | h | h | h | h | h | h | h | h | h | h | h | h | h <;>
    simp [h]

/-! ## Decode after encode -/

/-- A `Sys` that is well formed is not encoded by the word of `Cls` or of `Ret` (R78). -/
theorem decodeGroup0_packNNN {nnn : Addr12} (h : sysFieldOk nnn = true) : decodeGroup0 (packNNN 0 nnn) = .sys nnn := by
  obtain ⟨hcls, hret⟩ : nnn ≠ 0x0E0 ∧ nnn ≠ 0x0EE := by simpa [sysFieldOk] using h
  have field {w : Word} (e : packNNN 0 nnn = w) : nnn = fieldNNN w :=
    (fieldNNN_packNNN 0 nnn).symm.trans (congrArg fieldNNN e)
  rw [decodeGroup0_eq_sys (fun e => hcls (field e)) (fun e => hret (field e)), fieldNNN_packNNN]

theorem decodeWord_encode {i : Instr} (h : i.wf = true) : decodeWord (encode i) = .ok i := by
  cases i with
  | cls | ret => decide
  | sys nnn => rw [encode, decodeWord_of_fieldN1_eq_zero (fieldN1_packNNN 0 nnn), decodeGroup0_packNNN h]
  | jmp | call | loadI | jmpV0 => simp [encode, decodeWord]
  | skipEqImm | skipNeImm | loadImm | addImm | rand => simp [encode, decodeWord]
  | skipEqReg | skipNeReg | draw => simp [encode, decodeWord]
  | loadReg | or | and | xor | addReg | subVx | shiftRight | subRev | shiftLeft =>
    simp [encode, decodeWord, decodeGroup8]
  | skipKey | skipNotKey => simp [encode, decodeWord, decodeGroupE]
  | loadDelay | loadKey | setDelay | setSound | addI | loadFont | loadBcd | storeRegisters | loadRegisters =>
    simp [encode, decodeWord, decodeGroupF]

/-- Settles O1: the decoder reads back each field the encoder packs, and the two bytes are the word. -/
theorem decodeInvertsEncode : Obligations.DecodeInvertsEncode := by
  unfold Obligations.DecodeInvertsEncode
  intro i hi
  refine ⟨decodeWord_encode hi, fun rest => ?_⟩
  simp only [encodeBytes, List.cons_append, List.nil_append, decodeBytes, wordOfBytes_bytes, decodeWord_encode hi]

/-! ## Encode after decode -/

theorem packNNN_eq {w : Word} {n1 : BitVec 4} (h1 : fieldN1 w = n1) : packNNN n1 (fieldNNN w) = w :=
  h1 ▸ packNNN_fields w

theorem packXKK_eq {w : Word} {n1 : BitVec 4} {kk : Byte} (h1 : fieldN1 w = n1) (hkk : fieldKK w = kk) :
    packXKK n1 (fieldX w) kk = w := by
  subst h1 hkk
  exact packXKK_fields w

theorem packXYN_eq {w : Word} {n1 n4 : BitVec 4} (h1 : fieldN1 w = n1) (h4 : fieldN4 w = n4) :
    packXYN n1 (fieldX w) (fieldY w) n4 = w := by
  subst h1 h4
  exact packXYN_fields w

/-- What a word decodes to is an instruction, and the word encodes it. -/
def Encodes (w : Word) (i : Instr) : Prop := i.wf = true ∧ encode i = w

theorem encodes_decodeGroup0 {w : Word} (h1 : fieldN1 w = 0x0) : Encodes w (decodeGroup0 w) := by
  unfold decodeGroup0
  split
  · next hcls => exact ⟨rfl, hcls.symm⟩
  split
  · next hret => exact ⟨rfl, hret.symm⟩
  · next hcls hret =>
    have word_eq {nnn : Addr12} (e : fieldNNN w = nnn) : w = packNNN 0x0 nnn := e ▸ (packNNN_eq h1).symm
    have hfield : sysFieldOk (fieldNNN w) = true := by
      simpa [sysFieldOk] using ⟨fun e => hcls (word_eq e), fun e => hret (word_eq e)⟩
    exact ⟨hfield, packNNN_eq h1⟩

theorem encodes_of_decodeGroup8 {w : Word} {i : Instr} (h1 : fieldN1 w = 0x8)
    (h : decodeGroup8 (fieldX w) (fieldY w) (fieldN4 w) = .ok i) : Encodes w i := by
  unfold decodeGroup8 at h
  repeat' split at h
  all_goals cases h
  all_goals next h4 => exact ⟨rfl, packXYN_eq h1 h4⟩

theorem encodes_of_decodeGroupE {w : Word} {i : Instr} (h1 : fieldN1 w = 0xE)
    (h : decodeGroupE (fieldX w) (fieldKK w) = .ok i) : Encodes w i := by
  unfold decodeGroupE at h
  repeat' split at h
  all_goals cases h
  all_goals next hkk => exact ⟨rfl, packXKK_eq h1 hkk⟩

theorem encodes_of_decodeGroupF {w : Word} {i : Instr} (h1 : fieldN1 w = 0xF)
    (h : decodeGroupF (fieldX w) (fieldKK w) = .ok i) : Encodes w i := by
  unfold decodeGroupF at h
  repeat' split at h
  all_goals cases h
  all_goals next hkk => exact ⟨rfl, packXKK_eq h1 hkk⟩

theorem encodes_of_decodeWord {w : Word} {i : Instr} (h : decodeWord w = .ok i) : Encodes w i := by
  rcases decodeWord_cases w with ⟨h1, e⟩ | ⟨h1, e⟩ | ⟨h1, e⟩ | ⟨h1, e⟩ | ⟨h1, e⟩ | ⟨h1, e⟩ | ⟨h1, e⟩ | ⟨h1, e⟩ |
    ⟨h1, e⟩ | ⟨h1, e⟩ | ⟨h1, e⟩ | ⟨h1, e⟩ | ⟨h1, e⟩ | ⟨h1, e⟩ | ⟨h1, e⟩ | ⟨h1, e⟩ <;> rw [e] at h
  · cases h; exact encodes_decodeGroup0 h1
  · cases h; exact ⟨rfl, packNNN_eq h1⟩
  · cases h; exact ⟨rfl, packNNN_eq h1⟩
  · cases h; exact ⟨rfl, packXKK_eq h1 rfl⟩
  · cases h; exact ⟨rfl, packXKK_eq h1 rfl⟩
  · split at h <;> cases h
    next h4 => exact ⟨rfl, packXYN_eq h1 h4⟩
  · cases h; exact ⟨rfl, packXKK_eq h1 rfl⟩
  · cases h; exact ⟨rfl, packXKK_eq h1 rfl⟩
  · exact encodes_of_decodeGroup8 h1 h
  · split at h <;> cases h
    next h4 => exact ⟨rfl, packXYN_eq h1 h4⟩
  · cases h; exact ⟨rfl, packNNN_eq h1⟩
  · cases h; exact ⟨rfl, packNNN_eq h1⟩
  · cases h; exact ⟨rfl, packXKK_eq h1 rfl⟩
  · cases h; exact ⟨rfl, packXYN_eq h1 rfl⟩
  · exact encodes_of_decodeGroupE h1 h
  · exact encodes_of_decodeGroupF h1 h

/-- Settles O2: each branch of the decoder keeps every field of the word, and its selectors are the fixed bits of the form. -/
theorem encodeInvertsDecode : Obligations.EncodeInvertsDecode := by
  unfold Obligations.EncodeInvertsDecode
  exact fun _ _ => encodes_of_decodeWord

/-! ## The opcode map (R75) -/

/-- The rows of R75 with the primary selector `n1`. -/
def rowsOfN1 (n1 : BitVec 4) : List OpcodeRow := opcodeTable.filter fun row => fieldN1 row.pattern == n1

theorem fieldN1_mask_of_mem {row : OpcodeRow} (h : row ∈ opcodeTable) : fieldN1 row.mask = 0xF#4 := by
  revert row
  decide

theorem fieldN1_eq_of_selects {row : OpcodeRow} {w : Word} (hrow : row ∈ opcodeTable) (h : row.selects w = true) :
    fieldN1 row.pattern = fieldN1 w := by
  have hand : fieldN1 (w &&& row.mask) = fieldN1 w &&& fieldN1 row.mask := BitVec.extractLsb'_and
  rw [← beq_iff_eq.mp h, hand, fieldN1_mask_of_mem hrow, and_allOnes4]

/-- Only the rows of a word's own primary selector can match it. -/
theorem tableMnemonic_eq_rowsOfN1 {w : Word} {n1 : BitVec 4} (h1 : fieldN1 w = n1) :
    tableMnemonic w = ((rowsOfN1 n1).find? (·.selects w)).map (·.mnemonic) := by
  rw [tableMnemonic, rowsOfN1, List.find?_filter]
  congr 1
  refine List.find?_congr fun row hrow => ?_
  cases hsel : row.selects w with
  | false => simp
  | true => simp [fieldN1_eq_of_selects hrow hsel, h1]

/-- A selector with one row. -/
theorem tableMnemonic_of_one_row {w : Word} {n1 : BitVec 4} {m : String} (h1 : fieldN1 w = n1)
    (hrows : rowsOfN1 n1 = [⟨0xF000, packNNN n1 0, m⟩]) : tableMnemonic w = some m := by
  have hsel : OpcodeRow.selects ⟨0xF000, packNNN n1 0, m⟩ w = true := beq_iff_eq.mpr ((mask_N1 w n1).mpr h1)
  rw [tableMnemonic_eq_rowsOfN1 h1, hrows, List.find?_singleton, hsel]
  rfl

/-- A selector whose rows are told apart by a sub-selector: the table is a look-up of the word's own sub-selector `sub`. -/
theorem tableMnemonic_of_rows {α : Type} [DecidableEq α] {w : Word} {n1 : BitVec 4} {sub : α} {row : α → String → OpcodeRow}
    (hsel : ∀ a m, (row a m).selects w = decide (sub = a)) (hname : ∀ a m, (row a m).mnemonic = m)
    (h1 : fieldN1 w = n1) (forms : List (α × String)) (hrows : rowsOfN1 n1 = forms.map fun p => row p.1 p.2) :
    tableMnemonic w = (forms.find? fun p => decide (sub = p.1)).map (·.2) := by
  rw [tableMnemonic_eq_rowsOfN1 h1, hrows, List.find?_map, Option.map_map]
  simp only [Function.comp_def, hsel, hname]

theorem selects_by_N4 {w : Word} {n1 : BitVec 4} (h1 : fieldN1 w = n1) (n4 : BitVec 4) (m : String) :
    OpcodeRow.selects ⟨0xF00F, packXYN n1 0 0 n4, m⟩ w = decide (fieldN4 w = n4) := by
  rw [Bool.eq_iff_iff, decide_eq_true_eq]
  exact (beq_iff_eq.trans (mask_N1_N4 w n1 n4)).trans (and_iff_right h1)

theorem selects_by_KK {w : Word} {n1 : BitVec 4} (h1 : fieldN1 w = n1) (kk : Byte) (m : String) :
    OpcodeRow.selects ⟨0xF0FF, packXKK n1 0 kk, m⟩ w = decide (fieldKK w = kk) := by
  rw [Bool.eq_iff_iff, decide_eq_true_eq]
  exact (beq_iff_eq.trans (mask_N1_KK w n1 kk)).trans (and_iff_right h1)

/-- The decoder takes the form of the first matching row, and takes none where there is none. -/
def FollowsTable (w : Word) (decoded : Except DecodeError Instr) : Prop :=
  tableMnemonic w = decoded.toOption.map Instr.mnemonic

/-- In the group `N1` = 0 `Cls` and `Ret` stand before `Sys` in the table too. -/
theorem followsTable_group0 {w : Word} (h1 : fieldN1 w = 0x0) : FollowsTable w (.ok (decodeGroup0 w)) := by
  have hrows : rowsOfN1 0x0 = [⟨0xFFFF, 0x00E0, "Cls"⟩, ⟨0xFFFF, 0x00EE, "Ret"⟩, ⟨0xF000, 0x0000, "Sys"⟩] := rfl
  have hword (pattern : Word) (m : String) : OpcodeRow.selects ⟨0xFFFF, pattern, m⟩ w = (w == pattern) :=
    congrArg (· == pattern) BitVec.and_allOnes
  have hsys : OpcodeRow.selects ⟨0xF000, 0x0000, "Sys"⟩ w = true := beq_iff_eq.mpr ((mask_N1 w 0x0).mpr h1)
  rw [FollowsTable, tableMnemonic_eq_rowsOfN1 h1, hrows]
  simp only [List.find?_cons, hword, hsys, decodeGroup0]
  by_cases hcls : w = 0x00E0
  · subst hcls; rfl
  by_cases hret : w = 0x00EE
  · subst hret; rfl
  · rw [beq_false_of_ne hcls, beq_false_of_ne hret, if_neg hcls, if_neg hret]
    rfl

/-- A selector whose one row has a sub-selector, 0. -/
theorem followsTable_of_row_N4_zero {w : Word} {n1 : BitVec 4} (h1 : fieldN1 w = n1) (i : Instr) (e : DecodeError)
    (hrows : rowsOfN1 n1 = [⟨0xF00F, packXYN n1 0 0 0, i.mnemonic⟩]) :
    FollowsTable w (if fieldN4 w = 0 then .ok i else .error e) := by
  rw [FollowsTable, tableMnemonic_of_rows (selects_by_N4 h1) (fun _ _ => rfl) h1 [(0x0, i.mnemonic)] hrows]
  split
  · next h4 => rw [h4]; rfl
  · next h4 => rw [List.find?_singleton, decide_eq_false h4]; rfl

theorem followsTable_group8 {w : Word} (h1 : fieldN1 w = 0x8) (x y : Reg) :
    FollowsTable w (decodeGroup8 x y (fieldN4 w)) := by
  rw [FollowsTable, tableMnemonic_of_rows (selects_by_N4 h1) (fun _ _ => rfl) h1
    [(0x0, "LoadReg"), (0x1, "Or"), (0x2, "And"), (0x3, "Xor"), (0x4, "AddReg"), (0x5, "SubVx"), (0x6, "ShiftRight"),
      (0x7, "SubRev"), (0xE, "ShiftLeft")] rfl]
  unfold decodeGroup8
  repeat' split
  all_goals simp_all [Except.toOption, Instr.mnemonic]

theorem followsTable_groupE {w : Word} (h1 : fieldN1 w = 0xE) (x : Reg) :
    FollowsTable w (decodeGroupE x (fieldKK w)) := by
  rw [FollowsTable, tableMnemonic_of_rows (selects_by_KK h1) (fun _ _ => rfl) h1
    [(0x9E, "SkipKey"), (0xA1, "SkipNotKey")] rfl]
  unfold decodeGroupE
  repeat' split
  all_goals simp_all [Except.toOption, Instr.mnemonic]

theorem followsTable_groupF {w : Word} (h1 : fieldN1 w = 0xF) (x : Reg) :
    FollowsTable w (decodeGroupF x (fieldKK w)) := by
  rw [FollowsTable, tableMnemonic_of_rows (selects_by_KK h1) (fun _ _ => rfl) h1
    [(0x07, "LoadDelay"), (0x0A, "LoadKey"), (0x15, "SetDelay"), (0x18, "SetSound"), (0x1E, "AddI"), (0x29, "LoadFont"),
      (0x33, "LoadBcd"), (0x55, "StoreRegisters"), (0x65, "LoadRegisters")] rfl]
  unfold decodeGroupF
  repeat' split
  all_goals simp_all [Except.toOption, Instr.mnemonic]

theorem followsTable_decodeWord (w : Word) : FollowsTable w (decodeWord w) := by
  rcases decodeWord_cases w with ⟨h1, e⟩ | ⟨h1, e⟩ | ⟨h1, e⟩ | ⟨h1, e⟩ | ⟨h1, e⟩ | ⟨h1, e⟩ | ⟨h1, e⟩ | ⟨h1, e⟩ |
    ⟨h1, e⟩ | ⟨h1, e⟩ | ⟨h1, e⟩ | ⟨h1, e⟩ | ⟨h1, e⟩ | ⟨h1, e⟩ | ⟨h1, e⟩ | ⟨h1, e⟩ <;> rw [e]
  · exact followsTable_group0 h1
  · exact tableMnemonic_of_one_row h1 rfl
  · exact tableMnemonic_of_one_row h1 rfl
  · exact tableMnemonic_of_one_row h1 rfl
  · exact tableMnemonic_of_one_row h1 rfl
  · exact followsTable_of_row_N4_zero h1 _ _ rfl
  · exact tableMnemonic_of_one_row h1 rfl
  · exact tableMnemonic_of_one_row h1 rfl
  · exact followsTable_group8 h1 _ _
  · exact followsTable_of_row_N4_zero h1 _ _ rfl
  · exact tableMnemonic_of_one_row h1 rfl
  · exact tableMnemonic_of_one_row h1 rfl
  · exact tableMnemonic_of_one_row h1 rfl
  · exact tableMnemonic_of_one_row h1 rfl
  · exact followsTable_groupE h1 _
  · exact followsTable_groupF h1 _

/-- Settles O3: the rows of the word's primary selector are looked up by its sub-selector, as the decoder does. -/
theorem decoderFollowsOpcodeMap : Obligations.DecoderFollowsOpcodeMap := by
  unfold Obligations.DecoderFollowsOpcodeMap
  intro w
  have h : tableMnemonic w = (decodeWord w).toOption.map Instr.mnemonic := followsTable_decodeWord w
  exact ⟨fun i hi => by rw [h, hi]; rfl, fun e he => by rw [h, he]; rfl⟩

/-! ## The illegal words (R77) -/

/-- A word has no instruction. -/
def Illegal (decoded : Except DecodeError Instr) : Prop := ∃ e, decoded = .error e

theorem not_illegal_ok (i : Instr) : ¬ Illegal (.ok i) := fun ⟨_, h⟩ => nomatch h

theorem illegal_error (e : DecodeError) : Illegal (.error e) := ⟨e, rfl⟩

theorem illegal_of_N4_iff {n4 : BitVec 4} {i : Instr} {e : DecodeError} :
    Illegal (if n4 = 0#4 then .ok i else .error e) ↔ n4.toNat ≠ 0 := by
  split
  · next h => simp [h, not_illegal_ok]
  · next h => simpa [illegal_error, ← BitVec.toNat_inj] using h

theorem illegal_group8_iff {x y : Reg} {n4 : BitVec 4} :
    Illegal (decodeGroup8 x y n4) ↔ n4.toNat ∈ [8, 9, 0xA, 0xB, 0xC, 0xD, 0xF] := by
  rcases nibble_cases n4 with h | h | h | h | h | h | h | h | h | h | h | h | h | h | h | h <;> subst h <;>
    simp [decodeGroup8, not_illegal_ok, illegal_error]

theorem illegal_groupE_iff {x : Reg} {kk : Byte} : Illegal (decodeGroupE x kk) ↔ kk.toNat ∉ [0x9E, 0xA1] := by
  unfold decodeGroupE
  repeat' split
  all_goals simp_all [not_illegal_ok, illegal_error, ← BitVec.toNat_inj]

theorem illegal_groupF_iff {x : Reg} {kk : Byte} :
    Illegal (decodeGroupF x kk) ↔ kk.toNat ∉ [0x07, 0x0A, 0x15, 0x18, 0x1E, 0x29, 0x33, 0x55, 0x65] := by
  unfold decodeGroupF
  repeat' split
  all_goals simp_all [not_illegal_ok, illegal_error, ← BitVec.toNat_inj]

/-- Settles O4: group by group, the sub-selectors for which the decoder has no form. -/
theorem illegalWordsAreExactlyTheListed : Obligations.IllegalWordsAreExactlyTheListed := by
  unfold Obligations.IllegalWordsAreExactlyTheListed
  intro w
  rw [← fieldN1_toNat, ← fieldN4_toNat, ← fieldKK_toNat]
  show Illegal (decodeWord w) ↔ _
  rcases decodeWord_cases w with ⟨h1, e⟩ | ⟨h1, e⟩ | ⟨h1, e⟩ | ⟨h1, e⟩ | ⟨h1, e⟩ | ⟨h1, e⟩ | ⟨h1, e⟩ | ⟨h1, e⟩ |
    ⟨h1, e⟩ | ⟨h1, e⟩ | ⟨h1, e⟩ | ⟨h1, e⟩ | ⟨h1, e⟩ | ⟨h1, e⟩ | ⟨h1, e⟩ | ⟨h1, e⟩ <;> rw [e, h1] <;>
    simp [not_illegal_ok, illegal_of_N4_iff, illegal_group8_iff, illegal_groupE_iff, illegal_groupF_iff]

/-- Settles O6: the decoder, run on each word. -/
theorem sampleWordsDecode : Obligations.SampleWordsDecode := by
  unfold Obligations.SampleWordsDecode
  decide

end Sys2Proof
end

section
/-! PROOFS. What an instruction may change, and the faults of execute (spec/10_state.md, spec/60_exceptions.md R180 to R189). -/

namespace Sys2Proof.Machine

/-! ## The effect of an instruction -/

/-- The state after an instruction that completes. -/
def effect (i : Instr) (s : State) : State :=
  match i with
  | .cls => { s with fb := blankScreen }
  | .ret => { s with pc := s.stack.getD (s.sp - 1).toNat 0, sp := s.sp - 1 }
  | .sys _ => s
  | .jmp nnn => setPc (zextAddr nnn) s
  | .call nnn => { s with pc := zextAddr nnn, stack := s.stack.set s.sp.toNat s.pc, sp := s.sp + 1 }
  | .skipEqImm x kk => skipIf (reg s x == kk) s
  | .skipNeImm x kk => skipIf (reg s x != kk) s
  | .skipEqReg x y => skipIf (reg s x == reg s y) s
  | .loadImm x kk => writeReg x kk s
  | .addImm x kk => writeReg x (reg s x + kk) s
  | .loadReg x y => writeReg x (reg s y) s
  | .or x y => writeReg x (reg s x ||| reg s y) s
  | .and x y => writeReg x (reg s x &&& reg s y) s
  | .xor x y => writeReg x (reg s x ^^^ reg s y) s
  | .addReg x y => writeResultAndFlag x (reg s x + reg s y) (carryFlag (reg s x) (reg s y)) s
  | .subVx x y => writeResultAndFlag x (reg s x - reg s y) (greaterFlag (reg s x) (reg s y)) s
  | .shiftRight x _ => writeResultAndFlag x (reg s x >>> 1) (shiftRightFlag (reg s x)) s
  | .subRev x y => writeResultAndFlag x (reg s y - reg s x) (greaterFlag (reg s y) (reg s x)) s
  | .shiftLeft x _ => writeResultAndFlag x (reg s x <<< 1) (shiftLeftFlag (reg s x)) s
  | .skipNeReg x y => skipIf (reg s x != reg s y) s
  | .loadI nnn => setIndex (zextAddr nnn) s
  | .jmpV0 nnn => setPc (zextAddr nnn + zextByte (reg s 0)) s
  | .rand x kk => countDraw (writeReg x (Config.freeRandByte s.draws &&& kk) s)
  | .draw x y n => drawn x y (Memory.readRange s.cfg s.mem (indexAddr s) n.val) s
  | .skipKey x => skipIf ((keyIndex (reg s x)).any fun k => s.keys[k] == true) s
  | .skipNotKey x => skipIf ((keyIndex (reg s x)).any fun k => s.keys[k] == false) s
  | .loadDelay x => writeReg x s.dt s
  | .loadKey x => { s with waitreg := x, phase := .waitKey }
  | .setDelay x => { s with dt := reg s x }
  | .setSound x => { s with st := reg s x }
  | .addI x =>
    writeFlag (indexFlag s.i (reg s x)) (setIndex (BitVec.ofNat 16 (indexSum s.i (reg s x) % 0x1000)) s)
  | .loadFont x => setIndex (fontOffset (reg s x)) s
  | .loadBcd x => { s with mem := Memory.writeRange s.cfg s.mem (indexAddr s) (bcdDigits (reg s x)) }
  | .storeRegisters x => { s with mem := Memory.writeRange s.cfg s.mem (indexAddr s) (regsUpTo s x) }
  | .loadRegisters x => writeRegs (Memory.readRange s.cfg s.mem (indexAddr s) (regCount x)) s

/-- The instruction's check passes: it completes without a fault. -/
def Completes (i : Instr) (s : State) : Prop :=
  match i with
  | .ret => s.sp ≠ 0 ∧ (s.sp - 1).toNat < s.stack.length
  | .call _ => s.sp.toNat < s.cfg.stackDepth
  | .draw _ _ n => indexAddr s + n.val ≤ s.cfg.memBytes
  | .skipKey x | .skipNotKey x => (reg s x).toNat < 16
  | .loadBcd _ => indexAddr s + 3 ≤ s.cfg.memBytes
  | .storeRegisters x | .loadRegisters x => indexAddr s + regCount x ≤ s.cfg.memBytes
  | _ => True

/-- A key skip on a number that names a key. -/
theorem skipOnKey_of_lt {down : Bool} {x : Reg} {s : State} (h : (reg s x).toNat < 16) :
    skipOnKey down x s = .next (skipIf ((keyIndex (reg s x)).any fun k => s.keys[k] == down) s) := by
  simp [skipOnKey, keyIndex, h]

/-- Every instruction answers a next state: its effect, or its fault taken. -/
theorem exec_outcome (i : Instr) (s : State) :
    (Completes i s ∧ exec i s = .next (effect i s)) ∨ (∃ f, Raises i s f ∧ exec i s = .next (takeFault f s)) := by
  cases i with
  | ret =>
    rcases execRet_cases s with ⟨h, e⟩ | ⟨a, h, ha, e⟩ | ⟨h, hl, e⟩
    · exact .inr ⟨_, .inl ⟨rfl, h, rfl⟩, e⟩
    · obtain ⟨hlt, -⟩ := List.getElem?_eq_some_iff.mp ha
      have hpc : s.stack.getD (s.sp - 1).toNat 0 = a := by rw [List.getD_eq_getElem?_getD, ha, Option.getD_some]
      exact .inl ⟨⟨h, hlt⟩, by rw [effect, hpc]; exact e⟩
    · exact .inr ⟨_, .inr (.inl ⟨rfl, h, hl, rfl⟩), e⟩
  | call nnn =>
    rcases execCall_cases nnn s with ⟨h, e⟩ | ⟨h, e⟩
    · exact .inl ⟨h, e⟩
    · exact .inr ⟨_, .inr (.inr (.inl ⟨nnn, rfl, h, rfl⟩)), e⟩
  | draw x y n =>
    rcases execDraw_cases x y n s with ⟨h, e⟩ | ⟨h, e⟩
    · exact .inl ⟨h, e⟩
    · exact .inr ⟨_, .inr (.inr (.inr (.inl ⟨x, y, n, rfl, rfl⟩))), e⟩
  | skipKey x =>
    rcases skipOnKey_cases true x s with ⟨k, hk, -⟩ | ⟨h, e⟩
    · have hlt : (reg s x).toNat < 16 := hk ▸ k.isLt
      exact .inl ⟨hlt, skipOnKey_of_lt hlt⟩
    · exact .inr ⟨_, .inr (.inr (.inr (.inr (.inl ⟨x, .inl rfl, rfl⟩)))), e⟩
  | skipNotKey x =>
    rcases skipOnKey_cases false x s with ⟨k, hk, -⟩ | ⟨h, e⟩
    · have hlt : (reg s x).toNat < 16 := hk ▸ k.isLt
      exact .inl ⟨hlt, skipOnKey_of_lt hlt⟩
    · exact .inr ⟨_, .inr (.inr (.inr (.inr (.inl ⟨x, .inr rfl, rfl⟩)))), e⟩
  | loadBcd x =>
    rcases execLoadBcd_cases x s with ⟨h, e⟩ | ⟨h, e⟩
    · exact .inl ⟨h, e⟩
    · exact .inr ⟨_, .inr (.inr (.inr (.inr (.inr (.inl ⟨x, rfl, rfl⟩))))), e⟩
  | storeRegisters x =>
    rcases execStoreRegisters_cases x s with ⟨h, e⟩ | ⟨h, e⟩
    · exact .inl ⟨h, e⟩
    · exact .inr ⟨_, .inr (.inr (.inr (.inr (.inr (.inr ⟨x, .inl rfl, rfl⟩))))), e⟩
  | loadRegisters x =>
    rcases execLoadRegisters_cases x s with ⟨h, e⟩ | ⟨h, e⟩
    · exact .inl ⟨h, e⟩
    · exact .inr ⟨_, .inr (.inr (.inr (.inr (.inr (.inr ⟨x, .inr rfl, rfl⟩))))), e⟩
  | cls | sys | jmp | jmpV0 | skipEqImm | skipNeImm | skipEqReg | skipNeReg | loadImm | addImm | loadReg | or | and | xor
  | addReg | subVx | shiftRight | subRev | shiftLeft | loadI | loadFont | addI | rand | loadDelay | loadKey | setDelay
  | setSound => exact .inl ⟨trivial, rfl⟩

theorem exec_next_cases {i : Instr} {s t : State} (h : exec i s = .next t) :
    (Completes i s ∧ t = effect i s) ∨ (∃ f, Raises i s f ∧ t = takeFault f s) := by
  rcases exec_outcome i s with ⟨hc, e⟩ | ⟨f, hf, e⟩ <;> cases e.symm.trans h
  · exact .inl ⟨hc, rfl⟩
  · exact .inr ⟨f, hf, rfl⟩

/-! ## What the effect leaves unchanged -/

section Frame

variable {i : Instr} (s : State)

@[simp] theorem effect_cfg : (effect i s).cfg = s.cfg := by cases i <;> simp [effect, drawn]
@[simp] theorem effect_keys : (effect i s).keys = s.keys := by cases i <;> simp [effect, drawn]
@[simp] theorem effect_fcount : (effect i s).fcount = s.fcount := by cases i <;> simp [effect, drawn]
@[simp] theorem effect_fault : (effect i s).fault = s.fault := by cases i <;> simp [effect, drawn]
@[simp] theorem effect_frameMove : (effect i s).frameMove = s.frameMove := by cases i <;> simp [effect, drawn]

theorem effect_pc (h : writesPc i = false) : (effect i s).pc = s.pc := by
  cases i <;> simp_all [effect, drawn, writesPc]

theorem effect_i (hload : ∀ a, i ≠ .loadI a) (hadd : ∀ x, i ≠ .addI x) (hfont : ∀ x, i ≠ .loadFont x) :
    (effect i s).i = s.i := by
  cases i <;> simp_all [effect, drawn]

theorem effect_sp (hret : i ≠ .ret) (hcall : ∀ a, i ≠ .call a) : (effect i s).sp = s.sp := by
  cases i <;> simp_all [effect, drawn]

theorem effect_stack (h : ∀ a, i ≠ .call a) : (effect i s).stack = s.stack := by
  cases i <;> simp_all [effect, drawn]

theorem effect_dt (h : ∀ x, i ≠ .setDelay x) : (effect i s).dt = s.dt := by
  cases i <;> simp_all [effect, drawn]

theorem effect_st (h : ∀ x, i ≠ .setSound x) : (effect i s).st = s.st := by
  cases i <;> simp_all [effect, drawn]

theorem effect_waitreg (h : ∀ x, i ≠ .loadKey x) : (effect i s).waitreg = s.waitreg := by
  cases i <;> simp_all [effect, drawn]

theorem effect_phase (h : ∀ x, i ≠ .loadKey x) : (effect i s).phase = s.phase := by
  cases i <;> simp_all [effect, drawn]

theorem effect_draws (h : ∀ x kk, i ≠ .rand x kk) : (effect i s).draws = s.draws := by
  cases i <;> simp_all [effect, drawn]

theorem effect_mem (hbcd : ∀ x, i ≠ .loadBcd x) (hstore : ∀ x, i ≠ .storeRegisters x) : (effect i s).mem = s.mem := by
  cases i <;> simp_all [effect, drawn]

theorem effect_fb (hcls : i ≠ .cls) (hdraw : ∀ x y n, i ≠ .draw x y n) : (effect i s).fb = s.fb := by
  cases i <;> simp_all [effect]

end Frame

/-- Loading `x + 1` bytes leaves the registers above `x` alone (R146). -/
theorem reg_writeRegs_readRange_above {x r : Reg} (m : Memory) (addr : Nat) (s : State) (h : x < r) :
    reg (writeRegs (Memory.readRange s.cfg m addr (regCount x)) s) r = reg s r := by
  have hr : ¬ r.val < regCount x := Nat.not_lt.mpr h
  rw [reg_writeRegs, Memory.readRange_getElem?, if_neg hr, Option.getD_none]

theorem reg_effect_other {i : Instr} {r : Reg} (s : State) (h : r ∉ regsWritten i) : reg (effect i s) r = reg s r := by
  cases i with
  | loadImm | addImm | loadReg | or | and | xor | loadDelay => exact reg_writeReg_other _ s (List.mem_singleton.not.mp h)
  | rand => exact (reg_countDraw _ r).trans (reg_writeReg_other _ s (List.mem_singleton.not.mp h))
  | addReg | subVx | shiftRight | subRev | shiftLeft => exact (writeResultAndFlag_spec _ _ _ s).1.2 r h
  | addI => exact reg_writeFlag_other _ _ (List.mem_singleton.not.mp h)
  | draw x y => exact reg_drawn_other x y _ s (List.mem_singleton.not.mp h)
  | loadRegisters x => exact reg_writeRegs_readRange_above _ _ s (by simpa [regsWritten] using h)
  | skipEqImm | skipNeImm | skipEqReg | skipNeReg | skipKey | skipNotKey => exact reg_skipIf s _ r
  | cls | ret | sys | jmp | call | jmpV0 | loadI | loadFont | loadKey | setDelay | setSound | loadBcd
  | storeRegisters => rfl

/-! ## What an instruction leaves unchanged -/

theorem Raises.mayFault {i : Instr} {s : State} {f : FaultRecord} (h : Raises i s f) : mayFault i = true := by
  rcases h with ⟨rfl, -⟩ | ⟨rfl, -⟩ | ⟨_, rfl, -⟩ | ⟨_, _, _, rfl, -⟩ | ⟨_, rfl | rfl, -⟩ | ⟨_, rfl, -⟩ |
    ⟨_, rfl | rfl, -⟩ <;> rfl

/-- Settles O31: of the effects, two replace the memory and two the screen; a fault changes neither. -/
theorem onlyStoresChangeMemoryAndOnlyDrawingChangesPixels :
    Obligations.OnlyStoresChangeMemoryAndOnlyDrawingChangesPixels := by
  unfold Obligations.OnlyStoresChangeMemoryAndOnlyDrawingChangesPixels
  intro i s t h
  rcases exec_next_cases h with ⟨-, rfl⟩ | ⟨f, -, rfl⟩
  · refine ⟨fun hbcd hstore => ?_, effect_fb s⟩
    have hmem := effect_mem s hbcd hstore
    exact ⟨hmem, fun a => by rw [readByte, readByte, effect_cfg, hmem]⟩
  · exact ⟨fun _ _ => ⟨takeFault_mem s f, readByte_takeFault s f⟩, fun _ _ => takeFault_fb s f⟩

/-- Settles O32: the effect writes the registers the table names, and a fault writes none. -/
theorem onlyNamedRegistersAreWritten : Obligations.OnlyNamedRegistersAreWritten := by
  unfold Obligations.OnlyNamedRegistersAreWritten
  intro i s t r h hr
  rcases exec_next_cases h with ⟨-, rfl⟩ | ⟨f, -, rfl⟩
  · exact reg_effect_other s hr
  · exact reg_takeFault s f r

theorem exec_pc {i : Instr} {s t : State} (h : exec i s = .next t) (hi : writesPc i = false) : t.pc = s.pc := by
  rcases exec_next_cases h with ⟨-, rfl⟩ | ⟨f, -, rfl⟩
  · exact effect_pc s hi
  · exact takeFault_pc s f

/-- Settles O33: past the fetch, only the effect of a control transfer writes `PC`. -/
theorem onlyControlTransfersWritePc : Obligations.OnlyControlTransfersWritePc := by
  unfold Obligations.OnlyControlTransfersWritePc
  exact fun _ _ _ => exec_pc

/-- Settles O34: an effect writes each register where its writers are named, and keeps the fault record; a fault writes the
phase and an empty record alone, and only the instructions that may fault raise one. -/
theorem specialRegistersHaveTheirWriters : Obligations.SpecialRegistersHaveTheirWriters := by
  unfold Obligations.SpecialRegistersHaveTheirWriters
  intro i s t h
  refine ⟨exec_pc h, ?_⟩
  rcases exec_next_cases h with ⟨-, rfl⟩ | ⟨f, hf, rfl⟩
  · exact ⟨effect_i s, effect_sp s, effect_stack s, effect_dt s, effect_st s, effect_waitreg s,
      fun hkey _ => effect_phase s hkey, fun hkey => .inl (effect_phase s hkey), fun _ => effect_fault s,
      fun hne => absurd (effect_fault s) hne, effect_draws s, effect_keys s, effect_fcount s, effect_cfg s,
      effect_frameMove s⟩
  · have hno : mayFault i ≠ false := by rw [hf.mayFault]; decide
    refine ⟨fun _ _ _ => rfl, fun _ _ => rfl, fun _ => rfl, fun _ => rfl, fun _ => rfl, fun _ => rfl,
      fun _ h0 => absurd h0 hno, fun _ => .inr rfl, fun h0 => absurd h0 hno, fun hne => ⟨?_, rfl⟩, fun _ => rfl, rfl, rfl,
      rfl, rfl⟩
    cases hs : s.fault with
    | none => rfl
    | some g => exact absurd (by rw [takeFault_fault, hs, Option.getD_some]) hne

/-! ## The faults of execute -/

/-- Settles O12: each instruction's effect or its fault is the next state. -/
theorem everyInstructionAnswersANextState : Obligations.EveryInstructionAnswersANextState := by
  unfold Obligations.EveryInstructionAnswersANextState
  intro i s
  rcases exec_outcome i s with ⟨-, e⟩ | ⟨f, -, e⟩
  · exact ⟨_, e⟩
  · exact ⟨_, e⟩

/-- Settles O13: an instruction that completes does not halt the machine, so a halt is a fault taken. -/
theorem faultingInstructionChangesNothing : Obligations.FaultingInstructionChangesNothing := by
  unfold Obligations.FaultingInstructionChangesNothing
  intro i s t h hrun hhalted
  rcases exec_cases h with ⟨f, -, rfl⟩ | ⟨-, hphase | ⟨-, hphase⟩⟩
  · exact ⟨f, takeFault_halts f s⟩
  · exact absurd (hphase.symm.trans hhalted) hrun
  · exact nomatch hphase.symm.trans hhalted

/-- Within the invariant `SP` points into the stack, so `Ret` faults on an empty stack alone. -/
theorem State.Inv.sp_pred_lt {s : State} (hs : s.Inv) (h : s.sp ≠ 0) : (s.sp - 1).toNat < s.stack.length := by
  have hpred := sp_pred_toNat h
  have hbound := hs.spBound
  rw [hs.stackLength]
  omega

/-- Settles O14: the recorded fault is the one raised, and the invariant shuts out the stack index out of range. -/
theorem faultsComeFromTheirInstructions : Obligations.FaultsComeFromTheirInstructions := by
  unfold Obligations.FaultsComeFromTheirInstructions
  intro i s t f hs h hnone hsome
  rcases exec_cases h with ⟨g, hg, rfl⟩ | ⟨hkept, -⟩
  · obtain rfl : g = f := by simpa [hnone] using hsome
    rcases hg with ⟨rfl, -, rfl⟩ | ⟨-, h0, hout, -⟩ | ⟨nnn, rfl, -, rfl⟩ | ⟨x, y, n, rfl, rfl⟩ | ⟨x, hi, rfl⟩ |
      ⟨x, rfl, rfl⟩ | ⟨x, rfl | rfl, rfl⟩
    · exact ⟨rfl, rfl⟩
    · exact absurd hout (hs.sp_pred_lt h0).not_ge
    · exact ⟨⟨nnn, rfl⟩, rfl⟩
    · exact ⟨rfl, .inl ⟨x, y, n, rfl, rfl⟩⟩
    · exact ⟨⟨x, hi, rfl⟩, rfl⟩
    · exact ⟨rfl, .inr (.inl ⟨x, rfl, rfl⟩)⟩
    · exact ⟨rfl, .inr (.inr (.inl ⟨x, rfl, rfl⟩))⟩
    · exact ⟨rfl, .inr (.inr (.inr ⟨x, rfl, rfl⟩))⟩
  · rw [hkept, hnone] at hsome
    cases hsome

end Sys2Proof.Machine
end

section
/-! PROOFS. The instruction cycle (spec/40_instruction_cycle.md). -/

namespace Sys2Proof

/-! ## The sizes a configuration admits (R5) -/

theorem Config.memBytes_ge (c : Config) : 4095 ≤ c.memBytes := by
  cases h : c.memSize <;> simp [Config.memBytes, h]

theorem Config.memBytes_le (c : Config) : c.memBytes ≤ 4096 := by
  cases h : c.memSize <;> simp [Config.memBytes, h]

theorem Config.origin_toNat_le (c : Config) : c.origin.toNat ≤ 0x600 := by
  unfold Config.origin
  split <;> decide

end Sys2Proof

namespace Sys2Proof.Machine

/-- The word at `PC`, decoded from memory's two bytes, is what `decodeBytes` reads. -/
theorem decodeWord_wordAtPc {s : State} {i : Instr}
    (h : decodeBytes [readByte s s.pc.toNat, readByte s (s.pc.toNat + 1)] = .ok (i, [])) :
    decodeWord (wordAtPc s) = .ok i := by
  cases hd : decodeWord (wordAtPc s) with
  | ok j => simp_all [decodeBytes]
  | error e => simp [decodeBytes, hd] at h

/-- Settles O7: the issued step fetches the two bytes, and the decoded instruction runs in the state past them. -/
theorem stepRunsTheDecodedInstruction : Obligations.StepRunsTheDecodedInstruction := by
  unfold Obligations.StepRunsTheDecodedInstruction
  intro s i hc hrun hf hfit hi
  exact (step_run hc hrun hf).trans (instructionStep_ok hfit (decodeWord_wordAtPc hi))

/-- Settles O8: the issued step's fetch is the fault. -/
theorem fetchOutsideMemoryHalts : Obligations.FetchOutsideMemoryHalts := by
  unfold Obligations.FetchOutsideMemoryHalts
  intro s hc hrun hf hpast
  exact ⟨_, (step_run hc hrun hf).trans (instructionStep_outside hpast), takeFault_halts _ (issue s)⟩

/-- Settles O9: the fault is taken in the state past the word. -/
theorem illegalWordHalts : Obligations.IllegalWordHalts := by
  unfold Obligations.IllegalWordHalts
  intro s e hc hrun hf hfit he
  exact ⟨_, (step_run hc hrun hf).trans (instructionStep_illegal hfit he), takeFault_halts _ (advancePc (issue s))⟩

/-! ## A placed word -/

/-- The machine made ready to fetch has room for a word at `PC`. -/
theorem readyToFetch_fits (s : State) : (readyToFetch s).pc.toNat + 2 ≤ s.cfg.memBytes := by
  have horigin := Config.origin_toNat_le s.cfg
  have hmem := Config.memBytes_ge s.cfg
  simp only [readyToFetch]
  split <;> omega

theorem readyToFetch_fcount_lt {s : State} (hc : s.cfg.wf) : (readyToFetch s).fcount < s.cfg.ipf := by
  obtain ⟨-, -, -, hipf⟩ := hc
  simp only [readyToFetch]
  split <;> omega

/-- A word placed at `PC` is the word at `PC`. -/
theorem wordAtPc_storeAtPc {s : State} (hs : Memory.wf s.cfg s.mem) (w : Word) : wordAtPc (storeAtPc w s) = w := by
  have hhigh : readByte (storeAtPc w s) (s.pc.toNat + 0) = highByte w := readByte_writeRange_inside hs _ rfl
  have hlow : readByte (storeAtPc w s) (s.pc.toNat + 1) = lowByte w := readByte_writeRange_inside hs _ rfl
  have hword : wordAtPc (storeAtPc w s) = wordOfBytes (highByte w) (lowByte w) := congrArg₂ wordOfBytes hhigh hlow
  rw [hword, wordOfBytes_bytes]

theorem withFetchWord_word (s : State) (w : Word) :
    s.withFetchWord 16 w.toNat = storeAtPc w (readyToFetch s) := by
  rw [State.withFetchWord, placeFetchWord, Nat.mod_eq_of_lt w.isLt, BitVec.ofNat_toNat, BitVec.setWidth_eq]

/-- Settles O10: the machine made ready has an instruction left in its frame and room at `PC`, and the word stored there is
the one fetched. -/
theorem placedWordRunsNext : Obligations.PlacedWordRunsNext := by
  unfold Obligations.PlacedWordRunsNext
  intro s w i hc hmem hi
  have hfit := readyToFetch_fits s
  have hword : decodeWord (wordAtPc (storeAtPc w (readyToFetch s))) = .ok i := by
    rw [wordAtPc_storeAtPc (s := readyToFetch s) hmem w, hi]
  refine ⟨advancePc (issue (storeAtPc w (readyToFetch s))), ?_, rfl, rfl, fun a hhigh hlow => ?_⟩
  · rw [withFetchWord_word]
    exact (step_run (s := storeAtPc w (readyToFetch s)) hc rfl (readyToFetch_fcount_lt hc)).trans
      (instructionStep_ok (s := storeAtPc w (readyToFetch s)) hfit hword)
  · have hnext : ((readyToFetch s).pc + 2).toNat = (readyToFetch s).pc.toNat + 2 := by
      have := Config.memBytes_le s.cfg
      rw [BitVec.toNat_add]
      simp
      omega
    have hpc : (advancePc (issue (storeAtPc w (readyToFetch s)))).pc = (readyToFetch s).pc + 2 := rfl
    rw [hpc, hnext] at hhigh hlow
    exact Memory.read_writeRange_outside s.mem _ (by simp only [List.length_cons, List.length_nil]; omega)

/-! ## What an instruction step can lead to -/

theorem instructionStep_next_cases {s t : State} (h : instructionStep s = .next t) :
    (s.pc.toNat + 2 ≤ s.cfg.memBytes ∧ ∃ i, decodeWord (wordAtPc s) = .ok i ∧ exec i (advancePc (issue s)) = .next t) ∨
    (s.pc.toNat + 2 ≤ s.cfg.memBytes ∧ ∃ f, t = takeFault f (advancePc (issue s))) ∨
    (∃ f, t = takeFault f (issue s)) := by
  rcases instructionStep_cases s with ⟨hfit, i, hi, e⟩ | ⟨hfit, e⟩ | ⟨-, e⟩
  · exact .inl ⟨hfit, i, hi, e.symm.trans h⟩
  · cases e.symm.trans h
    exact .inr (.inl ⟨hfit, _, rfl⟩)
  · cases e.symm.trans h
    exact .inr (.inr ⟨_, rfl⟩)

/-- No instruction changes the configuration or its own place in the frame. -/
theorem exec_frame {i : Instr} {s t : State} (h : exec i s = .next t) :
    t.cfg = s.cfg ∧ t.fcount = s.fcount ∧ t.frameMove = s.frameMove := by
  rcases exec_next_cases h with ⟨-, rfl⟩ | ⟨f, -, rfl⟩
  · exact ⟨effect_cfg s, effect_fcount s, effect_frameMove s⟩
  · exact ⟨rfl, rfl, rfl⟩

/-- An instruction step is counted once, at its issue (R194), and changes no configuration. -/
theorem instructionStep_frame {s t : State} (h : instructionStep s = .next t) :
    t.cfg = s.cfg ∧ t.fcount = s.fcount + 1 ∧ t.frameMove = s.frameMove := by
  rcases instructionStep_next_cases h with ⟨-, i, -, hexec⟩ | ⟨-, f, rfl⟩ | ⟨f, rfl⟩
  · exact exec_frame hexec
  · exact ⟨rfl, rfl, rfl⟩
  · exact ⟨rfl, rfl, rfl⟩

/-- Settles O11: a step inside the frame is an instruction step, which is counted where it is issued. -/
theorem instructionCountsOnceInItsFrame : Obligations.InstructionCountsOnceInItsFrame := by
  unfold Obligations.InstructionCountsOnceInItsFrame
  intro s t h hrun hf
  obtain ⟨hc, -⟩ := step_cases h
  exact (instructionStep_frame ((step_run hc hrun hf).symm.trans h)).2

end Sys2Proof.Machine
end

section
/-! PROOFS. Reset, the program load and the invariant of a run (spec/10_state.md, spec/70_reset_and_hazards.md). -/

namespace Sys2Proof.Machine

/-! ## Reset -/

/-- Byte `k` of the glyph of digit `d` stands at `5 * d + k` of reset memory (R57). -/
theorem Memory.initial_glyph (c : Config) (d : Fin 16) (k : Fin 5) :
    Memory.initial c (5 * d.val + k.val) = c.font[d][k] := by
  have hd : (5 * d.val + k.val) / 5 = d.val := by omega
  have hk : (5 * d.val + k.val) % 5 = k.val := by omega
  have hfont : 5 * d.val + k.val < 80 := by omega
  rw [Memory.initial, dif_pos hfont]
  simp only [hd, hk, Fin.getElem_fin]

theorem Memory.initial_above (c : Config) {a : Nat} (h : 80 ≤ a) : Memory.initial c a = 0 :=
  dif_neg h.not_gt

/-- Settles O15: both resets are one record, whose memory lists no byte. -/
theorem resetGivesEveryValue : Obligations.ResetGivesEveryValue := by
  unfold Obligations.ResetGivesEveryValue
  intro c s₀ s hs
  obtain ⟨n, rfl⟩ : ∃ n, s = { State.resetWith c with draws := n } := by
    rcases hs with rfl | rfl
    · exact ⟨0, rfl⟩
    · exact ⟨s₀.draws, rfl⟩
  refine ⟨rfl, fun r => ?_, rfl, rfl, rfl, rfl, rfl, Memory.initial_glyph c, fun a => Memory.initial_above c,
    pixel_blankScreen, fun k => ?_, rfl, rfl, rfl⟩
  · simp [reg, State.resetWith]
  · simp [State.resetWith]

theorem resetWith_inv {c : Config} (hc : c.wf) : (State.resetWith c).Inv where
  cfgWf := hc
  memWf := Memory.nil_wf
  pcBound := (Config.origin_toNat_le c).trans (by decide)
  indexBound := Nat.zero_le _
  spBound := Nat.zero_le _
  stackLength := List.length_replicate
  returnBound a ha := by simp [State.resetWith] at ha
  fcountBound := Nat.zero_le _
  frameOrder _ := rfl
  faultHalted := by simp [State.resetWith]

/-- Settles O16: the default configuration is admitted too. -/
theorem resetMeetsTheInvariant : Obligations.ResetMeetsTheInvariant := by
  unfold Obligations.ResetMeetsTheInvariant
  exact ⟨fun _ => resetWith_inv, resetWith_inv (by decide)⟩

/-- Settles O19: an admitted configuration has `IPF` at least 1. -/
theorem instructionsPerFrameMustBePositive : Obligations.InstructionsPerFrameMustBePositive := by
  unfold Obligations.InstructionsPerFrameMustBePositive
  refine ⟨fun _ => rfl, by decide, fun s h => step_unsupported fun hc => ?_⟩
  obtain ⟨-, -, -, hipf⟩ := hc
  exact absurd hipf (by rw [h]; decide)

/-! ## The program load -/

theorem boot_eq (c : Config) (image : List Byte) :
    boot c image = (memWrite (State.resetWith c) c.origin.toNat image).toOption :=
  if_pos rfl

/-- Settles O20: the load is one write of a range, made in a reset state alone. -/
theorem programLoadCopiesTheImage : Obligations.ProgramLoadCopiesTheImage := by
  unfold Obligations.ProgramLoadCopiesTheImage
  refine ⟨fun c image hfit => ?_, fun c image hpast => ?_, fun s image hlate => if_neg hlate⟩
  · refine ⟨_, by rw [boot_eq, memWrite_ok hfit]; rfl, writeRange_onlyBytes _ _ _, fun k b => ?_⟩
    exact readByte_writeRange_inside (s := State.resetWith c) Memory.nil_wf _
  · rw [boot_eq, memWrite_error hpast]
    rfl

/-! ## The invariant under the effect of an instruction -/

/-- The state an instruction runs in: within the invariant, `PC` just past a word of memory, and not halted. -/
structure Running (s : State) : Prop where
  inv : s.Inv
  pcInMemory : s.pc.toNat ≤ s.cfg.memBytes
  notHalted : s.phase ≠ .halted

theorem effect_memWf {i : Instr} {s : State} (hs : Memory.wf s.cfg s.mem) (hc : Completes i s) :
    Memory.wf s.cfg (effect i s).mem := by
  cases i with
  | loadBcd x => exact Memory.writeRange_wf hs hc
  | storeRegisters x => exact Memory.writeRange_wf hs (by rw [regsUpTo_length]; exact hc)
  | _ => rwa [effect_mem s (by simp) (by simp)]

/-- The return address that `Ret` pops is one that the stack holds. -/
theorem State.Inv.returnAddress_le {s : State} (hs : s.Inv) (h : s.sp ≠ 0) :
    (s.stack.getD (s.sp - 1).toNat 0).toNat ≤ s.cfg.memBytes := by
  have hlt := hs.sp_pred_lt h
  have hpred := sp_pred_toNat h
  refine hs.returnBound _ (List.mem_take_iff_getElem.mpr ⟨(s.sp - 1).toNat, by omega, ?_⟩)
  rw [List.getD_eq_getElem _ _ hlt]

/-- A skip past the word after the last one of memory: 4096 + 2 is far below 0x10FE. -/
theorem skipIf_pc_le {s : State} (hs : Running s) (taken : Bool) : (skipIf taken s).pc.toNat ≤ 0x10FE := by
  have hpc := hs.pcInMemory
  have hmem := Config.memBytes_le s.cfg
  rw [skipIf_pc]
  split
  · rw [BitVec.toNat_add]
    simp
    omega
  · omega

/-- The sum of `JmpV0` is at most 0xFFF + 0xFF, the bound of R24. -/
theorem jmpV0_target_toNat (nnn : Addr12) (v : Byte) : (zextAddr nnn + zextByte v).toNat = nnn.toNat + v.toNat := by
  have hv : (zextByte v).toNat = v.toNat := BitVec.toNat_setWidth_of_le (by decide)
  have := nnn.isLt
  have := v.isLt
  rw [BitVec.toNat_add, zextAddr_toNat, hv]
  omega

theorem fontOffset_toNat (a : Byte) : (fontOffset a).toNat = 5 * a.toNat := by
  have := a.isLt
  rw [fontOffset, BitVec.toNat_ofNat]
  omega

theorem effect_pc_le {i : Instr} {s : State} (hs : Running s) (hc : Completes i s) : (effect i s).pc.toNat ≤ 0x10FE := by
  have hmem := Config.memBytes_le s.cfg
  cases i with
  | ret => exact ((hs.inv.returnAddress_le hc.1).trans hmem).trans (by decide)
  | jmp nnn | call nnn =>
    have := nnn.isLt
    show (zextAddr nnn).toNat ≤ _
    rw [zextAddr_toNat]
    omega
  | jmpV0 nnn =>
    have := nnn.isLt
    have := (reg s 0).isLt
    show (zextAddr nnn + zextByte (reg s 0)).toNat ≤ _
    rw [jmpV0_target_toNat]
    omega
  | skipEqImm | skipNeImm | skipEqReg | skipNeReg | skipKey | skipNotKey => exact skipIf_pc_le hs _
  | _ => rw [effect_pc s rfl]; exact hs.inv.pcBound

theorem effect_i_le {i : Instr} {s : State} (hs : s.i.toNat ≤ 0xFFF) : (effect i s).i.toNat ≤ 0xFFF := by
  cases i with
  | loadI nnn =>
    have := nnn.isLt
    show (zextAddr nnn).toNat ≤ _
    rw [zextAddr_toNat]
    omega
  | addI x =>
    show (BitVec.ofNat 16 (indexSum s.i (reg s x) % 0x1000)).toNat ≤ _
    rw [wrappedIndexSum_toNat]
    omega
  | loadFont x =>
    have := (reg s x).isLt
    show (fontOffset (reg s x)).toNat ≤ _
    rw [fontOffset_toNat]
    omega
  | _ => rwa [effect_i s (by simp) (by simp) (by simp)]

/-- A push keeps `SP` from wrapping: the stack has at most 255 entries (log entry 5). -/
theorem State.Inv.push_sp_toNat {s : State} (hs : s.Inv) (h : s.sp.toNat < s.cfg.stackDepth) :
    (s.sp + 1).toNat = s.sp.toNat + 1 := by
  obtain ⟨-, hdepth, -, -⟩ := hs.cfgWf
  exact sp_succ_toNat (by omega)

theorem effect_sp_le {i : Instr} {s : State} (hs : s.Inv) (hc : Completes i s) :
    (effect i s).sp.toNat ≤ s.cfg.stackDepth := by
  have hbound := hs.spBound
  cases i with
  | ret =>
    have hpred := sp_pred_toNat hc.1
    show (s.sp - 1).toNat ≤ _
    omega
  | call nnn =>
    show (s.sp + 1).toNat ≤ _
    rw [hs.push_sp_toNat hc]
    exact hc
  | _ => rwa [effect_sp s (by simp) (by simp)]

theorem effect_stack_length {i : Instr} (s : State) : (effect i s).stack.length = s.stack.length := by
  cases i with
  | call nnn => exact List.length_set
  | _ => rw [effect_stack s (by simp)]

/-- The entries held after a push are those held before and the one pushed. -/
theorem mem_take_set_of_lt {α : Type} {l : List α} {k : Nat} {v a : α} (h : a ∈ (l.set k v).take (k + 1)) :
    a = v ∨ a ∈ l.take k := by
  rw [List.take_add_one, List.take_set_of_le (Nat.le_refl k), List.mem_append, List.getElem?_set_self'] at h
  rcases h with h | h
  · exact .inr h
  · obtain ⟨-, hv⟩ : (∃ x, l[k]? = some x) ∧ v = a := by simpa using h
    exact .inl hv.symm

theorem effect_returnBound {i : Instr} {s : State} (hs : Running s) (hc : Completes i s) :
    ∀ a ∈ (effect i s).stack.take (effect i s).sp.toNat, a.toNat ≤ s.cfg.memBytes := by
  have hbound := hs.inv.returnBound
  cases i with
  | ret =>
    have hpred := sp_pred_toNat hc.1
    have hsub : (s.sp - 1).toNat ≤ s.sp.toNat := by omega
    exact fun a ha => hbound a ((List.take_sublist_take_left hsub).subset ha)
  | call nnn =>
    intro a ha
    rw [show (effect (.call nnn) s).sp.toNat = s.sp.toNat + 1 from hs.inv.push_sp_toNat hc] at ha
    rcases mem_take_set_of_lt ha with rfl | ha
    · exact hs.pcInMemory
    · exact hbound a ha
  | _ => rwa [effect_stack s (by simp), effect_sp s (by simp) (by simp)]

theorem effect_notHalted {i : Instr} {s : State} (h : s.phase ≠ .halted) : (effect i s).phase ≠ .halted := by
  cases i with
  | loadKey x => exact nofun
  | _ => rwa [effect_phase s (by simp)]

theorem effect_inv {i : Instr} {s : State} (hs : Running s) (hc : Completes i s) : (effect i s).Inv where
  cfgWf := by rw [effect_cfg]; exact hs.inv.cfgWf
  memWf := by rw [effect_cfg]; exact effect_memWf hs.inv.memWf hc
  pcBound := effect_pc_le hs hc
  indexBound := effect_i_le hs.inv.indexBound
  spBound := by rw [effect_cfg]; exact effect_sp_le hs.inv hc
  stackLength := by rw [effect_cfg, effect_stack_length]; exact hs.inv.stackLength
  returnBound := by rw [effect_cfg]; exact effect_returnBound hs hc
  fcountBound := by rw [effect_cfg, effect_fcount]; exact hs.inv.fcountBound
  frameOrder := by rw [effect_cfg, effect_fcount, effect_frameMove]; exact hs.inv.frameOrder
  faultHalted := by
    rw [effect_fault, ← hs.inv.faultHalted]
    exact iff_of_false (effect_notHalted hs.notHalted) hs.notHalted

/-! ## The invariant under every move -/

theorem takeFault_inv {s : State} (hs : s.Inv) (f : FaultRecord) : (takeFault f s).Inv :=
  { hs with faultHalted := by simp }

theorem issue_inv {s : State} (hs : s.Inv) (h : s.fcount < s.cfg.ipf) : (issue s).Inv :=
  { hs with
    fcountBound := h
    frameOrder := fun _ => hs.frameOrder h }

/-- The advance of `PC` past a word of memory. -/
theorem running_advancePc_issue {s : State} (hs : s.Inv) (hrun : s.phase = .run) (hf : s.fcount < s.cfg.ipf)
    (hfit : s.pc.toNat + 2 ≤ s.cfg.memBytes) : Running (advancePc (issue s)) := by
  have hmem := Config.memBytes_le s.cfg
  have hpc : (s.pc + 2).toNat = s.pc.toNat + 2 := by
    rw [BitVec.toNat_add]
    simp
    omega
  refine ⟨{ issue_inv hs hf with pcBound := ?_ }, hpc.trans_le hfit, by simp [hrun]⟩
  show (s.pc + 2).toNat ≤ _
  omega

theorem exec_inv {i : Instr} {s t : State} (hs : Running s) (h : exec i s = .next t) : t.Inv := by
  rcases exec_next_cases h with ⟨hc, rfl⟩ | ⟨f, -, rfl⟩
  · exact effect_inv hs hc
  · exact takeFault_inv hs.inv f

theorem instructionStep_inv {s t : State} (hs : s.Inv) (hrun : s.phase = .run) (hf : s.fcount < s.cfg.ipf)
    (h : instructionStep s = .next t) : t.Inv := by
  rcases instructionStep_next_cases h with ⟨hfit, i, -, hexec⟩ | ⟨hfit, f, rfl⟩ | ⟨f, rfl⟩
  · exact exec_inv (running_advancePc_issue hs hrun hf hfit) hexec
  · exact takeFault_inv (running_advancePc_issue hs hrun hf hfit).inv f
  · exact takeFault_inv (issue_inv hs hf) f

theorem frameEndStep_inv {s : State} (hs : s.Inv) (hf : s.cfg.ipf ≤ s.fcount) : (frameEndStep s).Inv := by
  have hend (h : s.fcount < s.cfg.ipf) {m : FrameMove} : m = .tick := absurd h hf.not_gt
  rcases frameEndStep_cases s with ⟨-, e⟩ | ⟨-, e⟩ | ⟨-, e⟩ <;> rw [e]
  · exact { hs with frameOrder := fun h => hend h }
  · exact { hs with frameOrder := fun h => hend h }
  · exact { hs with fcountBound := Nat.zero_le _, frameOrder := fun _ => rfl }

theorem waitStep_inv {s : State} (hs : s.Inv) (hwait : s.phase = .waitKey) : (waitStep s).Inv := by
  have hnone : ¬ s.fault.isSome := by rw [← hs.faultHalted, hwait]; exact nofun
  rcases waitStep_cases s with ⟨newKeys, e⟩ | ⟨k, e⟩ <;> rw [e]
  · exact { hs with }
  · exact { hs with faultHalted := iff_of_false nofun hnone }

/-- Settles O17: each move of the machine keeps the invariant, an instruction because its effect and its fault do. -/
theorem stepKeepsTheInvariant : Obligations.StepKeepsTheInvariant := by
  unfold Obligations.StepKeepsTheInvariant
  intro s t hs h
  obtain ⟨-, ⟨hrun, hf, hinstr⟩ | ⟨-, hf, rfl⟩ | ⟨hwait, rfl⟩⟩ := step_cases h
  · exact instructionStep_inv hs hrun hf hinstr
  · exact frameEndStep_inv hs hf
  · exact waitStep_inv hs hwait

end Sys2Proof.Machine
end

section
/-! PROOFS. The frame sequencer, waiting, halting and the end of a run (spec/60_exceptions.md, spec/70_reset_and_hazards.md). -/

namespace Sys2Proof.Machine

/-! ## The configuration -/

theorem frameEndStep_cfg (s : State) : (frameEndStep s).cfg = s.cfg := by
  rcases frameEndStep_cases s with ⟨-, e⟩ | ⟨-, e⟩ | ⟨-, e⟩ <;> rw [e]

theorem waitStep_cfg (s : State) : (waitStep s).cfg = s.cfg := by
  rcases waitStep_cases s with ⟨newKeys, e⟩ | ⟨k, e⟩ <;> rw [e]
  · rfl
  · rfl

theorem step_cfg {s t : State} (h : step s = .next t) : t.cfg = s.cfg := by
  obtain ⟨-, ⟨-, -, hinstr⟩ | ⟨-, -, rfl⟩ | ⟨-, rfl⟩⟩ := step_cases h
  · exact (instructionStep_frame hinstr).1
  · exact frameEndStep_cfg s
  · exact waitStep_cfg s

/-- Settles O18: no kind of move writes the field. -/
theorem stepKeepsTheConfiguration : Obligations.StepKeepsTheConfiguration := by
  unfold Obligations.StepKeepsTheConfiguration
  exact fun _ _ => step_cfg

/-! ## Halting and the fault record -/

theorem exec_keeps_record {i : Instr} {s t : State} {f : FaultRecord} (h : exec i s = .next t) (hs : s.fault = some f) :
    t.fault = some f := by
  rcases exec_next_cases h with ⟨-, rfl⟩ | ⟨g, -, rfl⟩
  · rw [effect_fault, hs]
  · rw [takeFault_fault, hs, Option.getD_some]

theorem instructionStep_keeps_record {s t : State} {f : FaultRecord} (h : instructionStep s = .next t)
    (hs : s.fault = some f) : t.fault = some f := by
  rcases instructionStep_next_cases h with ⟨-, i, -, hexec⟩ | ⟨-, g, rfl⟩ | ⟨g, rfl⟩
  · exact exec_keeps_record hexec hs
  · rw [takeFault_fault, advancePc_fault, issue_fault, hs, Option.getD_some]
  · rw [takeFault_fault, issue_fault, hs, Option.getD_some]

theorem frameEndStep_fault (s : State) : (frameEndStep s).fault = s.fault := by
  rcases frameEndStep_cases s with ⟨-, e⟩ | ⟨-, e⟩ | ⟨-, e⟩ <;> rw [e]

theorem waitStep_fault (s : State) : (waitStep s).fault = s.fault := by
  rcases waitStep_cases s with ⟨newKeys, e⟩ | ⟨k, e⟩ <;> rw [e]
  · rfl
  · rfl

/-- Settles O21: taking a fault keeps a record that is written, and no other move writes one. -/
theorem faultRecordIsKeptUntilReset : Obligations.FaultRecordIsKeptUntilReset := by
  unfold Obligations.FaultRecordIsKeptUntilReset
  refine ⟨fun s t f hf h => ?_, fun s f hs hf => ?_, fun _ _ => rfl⟩
  · obtain ⟨-, ⟨-, -, hinstr⟩ | ⟨-, -, rfl⟩ | ⟨-, rfl⟩⟩ := step_cases h
    · exact instructionStep_keeps_record hinstr hf
    · exact (frameEndStep_fault s).trans hf
    · exact (waitStep_fault s).trans hf
  · have hhalted : s.phase = .halted := hs.faultHalted.mpr (by rw [hf]; rfl)
    rw [step_halted hs.cfgWf hhalted, hf]

theorem instructionStep_next (s : State) : ∃ t, instructionStep s = .next t := by
  rcases instructionStep_cases s with ⟨-, i, -, e⟩ | ⟨-, e⟩ | ⟨-, e⟩
  · obtain ⟨t, ht⟩ := everyInstructionAnswersANextState i (advancePc (issue s))
    exact ⟨t, e.trans ht⟩
  · exact ⟨_, e⟩
  · exact ⟨_, e⟩

/-- Settles O22: in `RUN` there is an instruction or a move of the frame's end, in `WAIT_KEY` a move of the host. -/
theorem machineStopsExactlyWhenHalted : Obligations.MachineStopsExactlyWhenHalted := by
  unfold Obligations.MachineStopsExactlyWhenHalted
  intro s hc
  refine ⟨step_halted hc, fun hne => ?_⟩
  cases hphase : s.phase with
  | run =>
    rcases Nat.lt_or_ge s.fcount s.cfg.ipf with hf | hf
    · rw [step_run hc hphase hf]
      exact instructionStep_next s
    · exact ⟨_, step_frameEnd hc hphase hf⟩
  | waitKey => exact ⟨_, step_waitKey hc hphase⟩
  | halted => exact absurd hphase hne

/-- Settles O24: the record after the first fault is that fault. -/
theorem faultOutputShowsTheFirstFault : Obligations.FaultOutputShowsTheFirstFault := by
  unfold Obligations.FaultOutputShowsTheFirstFault
  refine ⟨fun s hs => by rw [faultOutput, hs]; rfl, fun s t f hs hhalts => ?_⟩
  obtain ⟨-, hfirst, -⟩ := hhalts
  rw [faultOutput, hfirst hs]
  cases f <;> rfl

/-! ## The end of a frame -/

/-- Settles O25: the tick counts each timer down by one, and the host's moves on a waiting machine count none. -/
theorem tickCountsBothTimersDown : Obligations.TickCountsBothTimersDown := by
  unfold Obligations.TickCountsBothTimersDown
  constructor
  · intro s hc hrun hf htick
    have htick' : frameEndStep s = { tick s with frameMove := .render } := by rw [frameEndStep, htick]
    exact ⟨_, step_frameEnd hc hrun hf, by rw [htick']; exact countDown_toNat s.dt,
      by rw [htick']; exact countDown_toNat s.st, by rw [htick']; rfl⟩
  · intro s t hnot h
    obtain ⟨-, ⟨hrun, -⟩ | ⟨hrun, -⟩ | ⟨-, rfl⟩⟩ := step_cases h
    · exact absurd hrun hnot
    · exact absurd hrun hnot
    · rcases waitStep_cases s with ⟨newKeys, e⟩ | ⟨k, e⟩ <;> rw [e]
      · exact ⟨rfl, rfl⟩
      · exact ⟨rfl, rfl⟩

/-- Settles O26: the two moves of the frame's end after the tick. -/
theorem frameEndsWithRenderAndPoll : Obligations.FrameEndsWithRenderAndPoll := by
  unfold Obligations.FrameEndsWithRenderAndPoll
  intro s hc hrun hf
  rw [step_frameEnd hc hrun hf]
  exact ⟨fun hrender => by rw [frameEndStep, hrender],
    fun hpoll => ⟨Config.freePolledKeys s.draws, by rw [frameEndStep, hpoll]; rfl⟩⟩

/-! ## Ticks over a run (R197) -/

/-- What one move from `s` counts as: an instruction, a tick, or neither. -/
def movesOf (s : State) : Nat × Nat :=
  if s.phase = .run ∧ s.fcount < s.cfg.ipf then (1, 0)
  else if s.phase = .run ∧ s.frameMove = .tick then (0, 1)
  else (0, 0)

theorem countMoves_succ {s t : State} (k : Nat) (h : step s = .next t) :
    countMoves (k + 1) s = movesOf s + countMoves k t := by
  simp only [countMoves, h, movesOf]
  split
  · exact Prod.ext (Nat.add_comm _ _) (Nat.zero_add _).symm
  split
  · exact Prod.ext (Nat.zero_add _).symm (Nat.add_comm _ _)
  · exact (zero_add _).symm

/-- The ticks that the current frame has had: none before its tick, one after it. -/
def frameTicks (s : State) : Nat := if s.frameMove = .tick then 0 else 1

theorem frameTicks_congr {s t : State} (h : t.frameMove = s.frameMove) : frameTicks t = frameTicks s := by
  rw [frameTicks, frameTicks, h]

/-- The balance that every move keeps: `IPF` instructions of a frame for each tick. -/
theorem step_tickBalance {s t : State} (hs : s.Inv) (h : step s = .next t) :
    s.fcount + (movesOf s).1 + s.cfg.ipf * frameTicks t = s.cfg.ipf * ((movesOf s).2 + frameTicks s) + t.fcount := by
  obtain ⟨-, ⟨hrun, hf, hinstr⟩ | ⟨hrun, hf, rfl⟩ | ⟨hwait, rfl⟩⟩ := step_cases h
  · obtain ⟨-, hcount, hmove⟩ := instructionStep_frame hinstr
    have hmoves : movesOf s = (1, 0) := if_pos ⟨hrun, hf⟩
    rw [frameTicks_congr hmove, hmoves, hcount, Nat.zero_add, Nat.add_comm]
  · have hfull : s.fcount = s.cfg.ipf := Nat.le_antisymm hs.fcountBound hf
    rcases frameEndStep_cases s with ⟨hm, e⟩ | ⟨hm, e⟩ | ⟨hm, e⟩ <;> rw [e] <;>
      simp [movesOf, frameTicks, hrun, hm, hfull]
  · have hmoves : movesOf s = (0, 0) := by simp [movesOf, hwait]
    have hkept : (waitStep s).fcount = s.fcount ∧ (waitStep s).frameMove = s.frameMove := by
      rcases waitStep_cases s with ⟨newKeys, e⟩ | ⟨k, e⟩ <;> rw [e]
      · exact ⟨rfl, rfl⟩
      · exact ⟨rfl, rfl⟩
    rw [frameTicks_congr hkept.2, hmoves, hkept.1, Nat.zero_add, Nat.add_zero, Nat.add_comm]

theorem run_tickBalance {k : Nat} {s t : State} (hs : s.Inv) (h : runSteps k s = .next t) :
    t.cfg = s.cfg ∧ t.Inv ∧
    s.fcount + (countMoves k s).1 + s.cfg.ipf * frameTicks t =
      s.cfg.ipf * ((countMoves k s).2 + frameTicks s) + t.fcount := by
  induction k generalizing s with
  | zero =>
    cases h
    exact ⟨rfl, hs, by simp [countMoves, Nat.add_comm]⟩
  | succ k ih =>
    obtain ⟨u, hstep, hrun⟩ := runSteps_succ h
    obtain ⟨hcfg, ht, hbalance⟩ := ih (stepKeepsTheInvariant s u hs hstep) hrun
    have hfirst := step_tickBalance hs hstep
    rw [step_cfg hstep] at hcfg hbalance
    refine ⟨hcfg, ht, ?_⟩
    rw [countMoves_succ k hstep, Prod.fst_add, Prod.snd_add]
    simp only [Nat.mul_add] at hfirst hbalance ⊢
    omega

theorem frameTicks_of_lt {s : State} (hs : s.Inv) (hf : s.fcount < s.cfg.ipf) : frameTicks s = 0 :=
  if_pos (hs.frameOrder hf)

/-- Settles O27: where an instruction is next no tick of the frame is made yet, so the balance is a division with the
remainder `fcount`. -/
theorem ticksFollowTheInstructionCount : Obligations.TicksFollowTheInstructionCount := by
  unfold Obligations.TicksFollowTheInstructionCount
  intro k s t hs hf h hft
  obtain ⟨hcfg, ht, hbalance⟩ := run_tickBalance hs h
  rw [frameTicks_of_lt hs hf, frameTicks_of_lt ht hft, Nat.mul_zero, Nat.add_zero, Nat.add_zero] at hbalance
  rw [hcfg] at hft
  rw [hbalance, Nat.mul_add_div (Nat.zero_lt_of_lt hft), Nat.div_eq_of_lt hft, Nat.add_zero]

/-! ## A key press -/

theorem keyPress_frame (k : Fin 16) (s : State) :
    keyPress k s = { s with x := (keyPress k s).x, keys := (keyPress k s).keys, phase := .run } := rfl

theorem reg_keyPress (k : Fin 16) (s : State) (r : Reg) :
    reg (keyPress k s) r = if r = s.waitreg then BitVec.ofNat 8 k.val else reg s r :=
  reg_writeReg r s.waitreg _ s

theorem reg_keyPress_waitreg_toNat (k : Fin 16) (s : State) : (reg (keyPress k s) s.waitreg).toNat = k.val := by
  rw [reg_keyPress, if_pos rfl, BitVec.toNat_ofNat]
  omega

theorem reg_keyPress_other (k : Fin 16) (s : State) {r : Reg} (h : r ≠ s.waitreg) : reg (keyPress k s) r = reg s r := by
  rw [reg_keyPress, if_neg h]

theorem keyPress_key_down (k : Fin 16) (s : State) : (keyPress k s).keys[k] = true := by
  simp

theorem keyPress_key_other {k j : Fin 16} (s : State) (h : j ≠ k) : (keyPress k s).keys[j] = s.keys[j] := by
  have : k.val ≠ j.val := fun e => h (Fin.ext e.symm)
  simp [this]

/-- Settles O28: the host's move is a poll, which replaces the keys, or a press. -/
theorem waitingMachineKeepsItsState : Obligations.WaitingMachineKeepsItsState := by
  unfold Obligations.WaitingMachineKeepsItsState
  intro s hc hwait
  refine ⟨_, step_waitKey hc hwait, ?_⟩
  rcases waitStep_cases s with ⟨newKeys, e⟩ | ⟨k, e⟩ <;> rw [e]
  · exact .inl ⟨newKeys, rfl⟩
  · exact .inr ⟨k, rfl, reg_keyPress_waitreg_toNat k s, fun r => reg_keyPress_other k s, keyPress_key_down k s,
      fun j => keyPress_key_other s⟩

/-- Settles O59: the press writes the register that the wait has named. -/
theorem loadKeyWaitsAndAPressCompletesIt : Obligations.LoadKeyWaitsAndAPressCompletesIt := by
  unfold Obligations.LoadKeyWaitsAndAPressCompletesIt
  intro x s
  refine ⟨rfl, fun k u _ hx => ?_⟩
  subst hx
  exact ⟨keyPress_frame k u, reg_keyPress_waitreg_toNat k u, fun r => reg_keyPress_other k u, keyPress_key_down k u,
    fun j => keyPress_key_other u⟩

/-! ## The end of a run (R217) -/

/-- `t` is `s` but for the sequencer's count and place, the keys and the draws. -/
def SameProgramState (s t : State) : Prop :=
  t = { s with fcount := t.fcount, frameMove := t.frameMove, keys := t.keys, draws := t.draws }

theorem AtFinalState.of_same {s t : State} (hs : AtFinalState s) (h : SameProgramState s t) : AtFinalState t := by
  rw [h]
  exact hs

/-- The instruction of a final state is the jump to itself. -/
theorem instructionStep_final {s t : State} (hs : AtFinalState s) (h : instructionStep s = .next t) :
    SameProgramState s t := by
  obtain ⟨-, hfit, -, -, nnn, hpc, hdecode⟩ := hs
  cases (instructionStep_ok hfit hdecode).symm.trans h
  show setPc (zextAddr nnn) (advancePc (issue s)) = _
  rw [hpc]
  rfl

theorem frameEndStep_final {s : State} (hs : AtFinalState s) : SameProgramState s (frameEndStep s) := by
  obtain ⟨-, -, hdt, hst, -⟩ := hs
  rcases frameEndStep_cases s with ⟨-, e⟩ | ⟨-, e⟩ | ⟨-, e⟩ <;> rw [e]
  · have hdt' : countDown s.dt = s.dt := by rw [hdt]; rfl
    have hst' : countDown s.st = s.st := by rw [hst]; rfl
    rw [hdt', hst']
    rfl
  · rfl
  · rfl

/-- Settles O23: the jump to itself and the moves of the frame's end change nothing the program can see but the keys. -/
theorem finalStateIsKept : Obligations.FinalStateIsKept := by
  unfold Obligations.FinalStateIsKept
  intro s t hs h
  have hsame : SameProgramState s t := by
    obtain ⟨-, ⟨-, -, hinstr⟩ | ⟨-, -, rfl⟩ | ⟨hwait, -⟩⟩ := step_cases h
    · exact instructionStep_final hs hinstr
    · exact frameEndStep_final hs
    · exact nomatch hs.1.symm.trans hwait
  exact ⟨hs.of_same hsame, hsame⟩

end Sys2Proof.Machine
end

section
/-! PROOFS. Register copies and logic, skips, calls and returns (spec/41_alu.md, spec/42_control_flow.md). -/

namespace Sys2Proof.Machine

/-! ## Register copies, the immediate add and logic -/

/-- Settles O36: each is one register write, whose frame is known. -/
theorem registerCopyAndImmediateAddSetNoFlag : Obligations.RegisterCopyAndImmediateAddSetNoFlag := by
  unfold Obligations.RegisterCopyAndImmediateAddSetNoFlag
  intro x y kk s
  refine ⟨⟨_, rfl, reg_writeReg_same _ _ _, onlyRegs_writeReg _ _ _⟩, ⟨_, rfl, ?_, onlyRegs_writeReg _ _ _⟩⟩
  rw [reg_writeReg_same, BitVec.toNat_add]

/-- Settles O37: each is one register write of a value taken bit by bit. -/
theorem logicOperatesBitByBit : Obligations.LogicOperatesBitByBit := by
  unfold Obligations.LogicOperatesBitByBit
  intro x y s
  refine ⟨⟨_, rfl, onlyRegs_writeReg _ _ _, fun k => ?_⟩, ⟨_, rfl, onlyRegs_writeReg _ _ _, fun k => ?_⟩,
    ⟨_, rfl, onlyRegs_writeReg _ _ _, fun k => ?_⟩⟩
  · rw [reg_writeReg_same, BitVec.getLsbD_or]
  · rw [reg_writeReg_same, BitVec.getLsbD_and]
  · rw [reg_writeReg_same, BitVec.getLsbD_xor]

/-! ## Skips and the offset jump -/

theorem skipIf_eq (taken : Bool) (s : State) :
    skipIf taken s = { s with pc := if taken then s.pc + 2 else s.pc } := by
  cases taken
  · rfl
  · rfl

theorem skipIf_beq {α : Type} [BEq α] [LawfulBEq α] [DecidableEq α] (a b : α) (s : State) :
    skipIf (a == b) s = { s with pc := if a = b then s.pc + 2 else s.pc } := by
  rw [skipIf_eq]
  simp only [beq_iff_eq]

theorem skipIf_bne {α : Type} [BEq α] [LawfulBEq α] [DecidableEq α] (a b : α) (s : State) :
    skipIf (a != b) s = { s with pc := if a = b then s.pc else s.pc + 2 } := by
  rw [skipIf_eq]
  simp only [bne_iff_ne, ite_not]

/-- Settles O45: a skip writes `PC` by its condition, and the sum of the offset jump fits its 16 bits. -/
theorem skipsAndOffsetJumpWriteOnlyPc : Obligations.SkipsAndOffsetJumpWriteOnlyPc := by
  unfold Obligations.SkipsAndOffsetJumpWriteOnlyPc
  intro x y kk nnn s
  exact ⟨congrArg _ (skipIf_beq _ _ s), congrArg _ (skipIf_bne _ _ s), congrArg _ (skipIf_beq _ _ s),
    congrArg _ (skipIf_bne _ _ s), _, rfl, setPc_frame _ s, jmpV0_target_toNat nnn (reg s 0)⟩

/-! ## Calls and returns -/

/-- Settles O42: the push writes the entry at `SP`, or the full stack is the fault. -/
theorem callPushesTheReturnAddress : Obligations.CallPushesTheReturnAddress := by
  unfold Obligations.CallPushesTheReturnAddress
  intro nnn s hc hlen
  obtain ⟨-, hdepth, -, -⟩ := hc
  rcases execCall_cases nnn s with ⟨hroom, e⟩ | ⟨hfull, e⟩
  · refine ⟨fun _ => ⟨_, e, rfl, zextAddr_toNat nnn, sp_succ_toNat (by omega), ?_, fun k hk => ?_⟩,
      fun h => absurd h hroom.ne⟩
    · exact List.getElem?_set_self (by rw [hlen]; exact hroom)
    · exact List.getElem?_set_ne (Ne.symm hk)
  · exact ⟨fun h => absurd h hfull.not_gt, fun _ => ⟨_, e, takeFault_halts _ s⟩⟩

/-- Settles O43: the pop reads the entry below `SP`, or the empty stack is the fault. -/
theorem retPopsTheReturnAddress : Obligations.RetPopsTheReturnAddress := by
  unfold Obligations.RetPopsTheReturnAddress
  intro s hbound
  rcases execRet_cases s with ⟨h0, e⟩ | ⟨a, h0, ha, e⟩ | ⟨h0, hout, -⟩
  · exact ⟨fun h => absurd h0 h, fun _ => ⟨_, e, takeFault_halts _ s⟩⟩
  · exact ⟨fun _ => ⟨_, e, rfl, sp_pred_toNat h0, ha⟩, fun h => absurd h h0⟩
  · have hpred := sp_pred_toNat h0
    omega

/-- `Ret` goes to the entry below `SP`. -/
theorem exec_ret_of_getElem? {s : State} {a : Word} (h0 : s.sp ≠ 0) (ha : s.stack[(s.sp - 1).toNat]? = some a) :
    exec .ret s = .next { s with pc := a, sp := s.sp - 1 } := by
  rcases execRet_cases s with ⟨h, -⟩ | ⟨b, -, hb, e⟩ | ⟨-, hout, -⟩
  · exact absurd h h0
  · obtain rfl : a = b := Option.some.inj (ha.symm.trans hb)
    exact e
  · rw [List.getElem?_eq_none hout] at ha
    cases ha

/-- Settles O44: `Ret` takes back the increment of `SP`, so it reads the entry that `Call` wrote. -/
theorem retComesBackAfterItsCall : Obligations.RetComesBackAfterItsCall := by
  unfold Obligations.RetComesBackAfterItsCall
  intro nnn s t u hc hlen hroom h hsp hstack
  obtain ⟨-, hdepth, -, -⟩ := hc
  rcases execCall_cases nnn s with ⟨-, e⟩ | ⟨hfull, -⟩
  · cases e.symm.trans h
    have hpush : u.sp = s.sp + 1 := hsp
    have hpred : u.sp - 1 = s.sp := by rw [hpush]; exact BitVec.add_sub_cancel s.sp 1
    have hsucc : u.sp.toNat = s.sp.toNat + 1 := by rw [hpush]; exact sp_succ_toNat (by omega)
    have h0 : u.sp ≠ 0 := fun hzero => Nat.succ_ne_zero _ (hsucc.symm.trans (congrArg BitVec.toNat hzero))
    have hentry : u.stack[(u.sp - 1).toNat]? = some s.pc := by
      rw [hpred, hstack]
      exact List.getElem?_set_self (by rw [hlen]; exact hroom)
    exact ⟨_, exec_ret_of_getElem? h0 hentry, rfl, hpred⟩
  · exact absurd hroom hfull.not_gt

end Sys2Proof.Machine
end

section
/-! PROOFS. The font, the register file in memory, and a store before a fetch (spec/43_index_memory.md, spec/20_memory.md). -/

namespace Sys2Proof.Machine

/-- Settles O47: reset memory lists no byte, so the glyph is the font's. -/
theorem loadFontPointsAtTheGlyph : Obligations.LoadFontPointsAtTheGlyph := by
  unfold Obligations.LoadFontPointsAtTheGlyph
  intro x s
  refine ⟨_, rfl, setIndex_frame _ s, fontOffset_toNat _, fun d k hd hmem => ?_⟩
  have hinitial (a : Nat) : readByte s a = Memory.initial s.cfg a := by rw [readByte, hmem]; rfl
  rw [readByte_setIndex, setIndex_i, fontOffset_toNat, hd, hinitial]
  exact Memory.initial_glyph s.cfg d k

/-! ## Storing and loading registers -/

/-- The state in which `StoreRegisters` leaves a machine whose registers fit (R145). -/
def stored (x : Reg) (s : State) : State :=
  { s with mem := Memory.writeRange s.cfg s.mem (indexAddr s) (regsUpTo s x) }

theorem exec_storeRegisters_fits {x : Reg} {s : State} (h : indexAddr s + regCount x ≤ s.cfg.memBytes) :
    exec (.storeRegisters x) s = .next (stored x s) := by
  rcases execStoreRegisters_cases x s with ⟨-, e⟩ | ⟨hpast, -⟩
  · exact e
  · exact absurd h hpast.not_ge

theorem exec_storeRegisters_past {x : Reg} {s : State} (h : s.cfg.memBytes < indexAddr s + regCount x) :
    exec (.storeRegisters x) s = .next (takeFault (.outOfBounds (indexAddr s) (regCount x)) s) := by
  rcases execStoreRegisters_cases x s with ⟨hfit, -⟩ | ⟨-, e⟩
  · exact absurd hfit h.not_ge
  · exact e

theorem readByte_stored {x r : Reg} {s : State} (hs : Memory.wf s.cfg s.mem) (h : r ≤ x) :
    readByte (stored x s) (indexAddr s + r.val) = reg s r :=
  readByte_writeRange_inside hs _ (regsUpTo_getElem? s x r h)

theorem stored_onlyBytes (x : Reg) (s : State) : OnlyBytes (indexAddr s) (regCount x) s (stored x s) := by
  have h := writeRange_onlyBytes s (indexAddr s) (regsUpTo s x)
  rwa [regsUpTo_length] at h

/-- Settles O50: the bytes stored are the registers' own, and a range past the end is the fault. -/
theorem storeRegistersCopiesToMemory : Obligations.StoreRegistersCopiesToMemory := by
  unfold Obligations.StoreRegistersCopiesToMemory
  intro x s hs
  exact ⟨fun hfit => ⟨_, exec_storeRegisters_fits hfit, stored_onlyBytes x s, fun r => readByte_stored hs⟩,
    fun hpast => ⟨_, exec_storeRegisters_past hpast, takeFault_halts _ s⟩⟩

/-- The state in which `LoadRegisters` leaves a machine whose registers fit (R146). -/
def loaded (x : Reg) (s : State) : State := writeRegs (Memory.readRange s.cfg s.mem (indexAddr s) (regCount x)) s

theorem exec_loadRegisters_fits {x : Reg} {s : State} (h : indexAddr s + regCount x ≤ s.cfg.memBytes) :
    exec (.loadRegisters x) s = .next (loaded x s) := by
  rcases execLoadRegisters_cases x s with ⟨-, e⟩ | ⟨hpast, -⟩
  · exact e
  · exact absurd h hpast.not_ge

theorem exec_loadRegisters_past {x : Reg} {s : State} (h : s.cfg.memBytes < indexAddr s + regCount x) :
    exec (.loadRegisters x) s = .next (takeFault (.outOfBounds (indexAddr s) (regCount x)) s) := by
  rcases execLoadRegisters_cases x s with ⟨hfit, -⟩ | ⟨-, e⟩
  · exact absurd hfit h.not_ge
  · exact e

theorem reg_loaded {x r : Reg} (s : State) (h : r ≤ x) : reg (loaded x s) r = readByte s (indexAddr s + r.val) := by
  have hr : r.val < regCount x := Nat.lt_succ_of_le h
  rw [loaded, reg_writeRegs, Memory.readRange_getElem?, if_pos hr, Option.getD_some]
  rfl

/-- Settles O51: the bytes loaded are memory's own, and a range past the end is the fault. -/
theorem loadRegistersCopiesFromMemory : Obligations.LoadRegistersCopiesFromMemory := by
  unfold Obligations.LoadRegistersCopiesFromMemory
  intro x s
  exact ⟨fun hfit => ⟨_, exec_loadRegisters_fits hfit, rfl, fun r => reg_loaded s,
      fun r => reg_writeRegs_readRange_above _ _ s⟩,
    fun hpast => ⟨_, exec_loadRegisters_past hpast, takeFault_halts _ s⟩⟩

/-- Settles O52: the load reads the bytes the store wrote, whatever registers are in between. -/
theorem storedRegistersLoadBack : Obligations.StoredRegistersLoadBack := by
  unfold Obligations.StoredRegistersLoadBack
  intro x s t u hs hfit h hcfg hmem hi
  cases (exec_storeRegisters_fits hfit).symm.trans h
  have haddr : indexAddr u = indexAddr s := congrArg BitVec.toNat hi
  have hbyte (a : Nat) : readByte u a = readByte (stored x s) a := by rw [readByte, readByte, hcfg, hmem]
  have hfit' : indexAddr u + regCount x ≤ u.cfg.memBytes := by rw [haddr, hcfg]; exact hfit
  refine ⟨_, exec_loadRegisters_fits hfit', fun r hr => ?_, fun r => reg_writeRegs_readRange_above _ _ u⟩
  rw [reg_loaded u hr, haddr, hbyte, readByte_stored hs hr]

/-! ## A store seen by the next fetch (R63) -/

/-- The state in which `LoadBcd` leaves a machine whose digits fit (R144). -/
def bcdStored (x : Reg) (s : State) : State :=
  { s with mem := Memory.writeRange s.cfg s.mem (indexAddr s) (bcdDigits (reg s x)) }

theorem exec_loadBcd_fits {x : Reg} {s : State} (h : indexAddr s + 3 ≤ s.cfg.memBytes) :
    exec (.loadBcd x) s = .next (bcdStored x s) := by
  rcases execLoadBcd_cases x s with ⟨-, e⟩ | ⟨hpast, -⟩
  · exact e
  · exact absurd h hpast.not_ge

theorem readByte_bcdStored {x : Reg} {s : State} (hs : Memory.wf s.cfg s.mem) {k : Nat} (hk : k < 3) :
    (readByte (bcdStored x s) (indexAddr s + k)).toNat = (reg s x).toNat / 10 ^ (2 - k) % 10 :=
  readByte_writeRange_bcdDigits hs _ _ hk

theorem bcdStored_onlyBytes (x : Reg) (s : State) : OnlyBytes (indexAddr s) 3 s (bcdStored x s) :=
  writeRange_onlyBytes s (indexAddr s) (bcdDigits (reg s x))

/-- Settles O30: neither store moves `PC`, and each byte fetched is the one written at its place, or the old one outside the
range. -/
theorem fetchSeesTheStoreBeforeIt : Obligations.FetchSeesTheStoreBeforeIt := by
  unfold Obligations.FetchSeesTheStoreBeforeIt
  constructor
  · intro s x hs hfit hpc
    obtain ⟨-, hkept⟩ := stored_onlyBytes x s
    have hbyte (a : Nat) (r : Reg) (hr : r ≤ x) (ha : indexAddr s + r.val = a) : readByte (stored x s) a = reg s r :=
      ha ▸ readByte_stored hs hr
    exact ⟨_, _, _, exec_storeRegisters_fits hfit, fetchWord_ok hpc, hbyte _, hbyte _, hkept _, hkept _⟩
  · intro s x hs hfit hpc
    obtain ⟨-, hkept⟩ := bcdStored_onlyBytes x s
    have hbyte (a k : Nat) (hk : k < 3) (ha : indexAddr s + k = a) :
        (readByte (bcdStored x s) a).toNat = (reg s x).toNat / 10 ^ (2 - k) % 10 :=
      ha ▸ readByte_bcdStored hs hk
    exact ⟨_, _, _, exec_loadBcd_fits hfit, fetchWord_ok hpc, hbyte _, hbyte _, hkept _, hkept _⟩

end Sys2Proof.Machine
end

section
/-! PROOFS. A sprite drawn twice, random bytes, key skips and timers (spec/44_display.md, spec/45_timers_keys_random.md). -/

namespace Sys2Proof.Machine

/-- Settles O56: the pixels covered are inverted twice, and the second drawing sees them inverted once (R155). -/
theorem drawingTwiceRestoresTheScreen : Obligations.DrawingTwiceRestoresTheScreen := by
  unfold Obligations.DrawingTwiceRestoresTheScreen
  intro x0 y0 rows fb hlen
  have hrows : rows.length ≤ 32 := hlen.trans (by decide)
  have hfirst := drawSprite_inverts x0 y0 hrows fb
  have hsecond := drawSprite_inverts x0 y0 hrows (drawSprite x0 y0 rows fb).fb
  constructor
  · refine framebuffer_ext fun r c => ?_
    by_cases hc : SpriteCovers rows x0 y0 r c
    · rw [hsecond.covered r c hc, hfirst.covered r c hc, Bool.not_not]
    · rw [hsecond.uncovered r c hc, hfirst.uncovered r c hc]
  · have hfresh : (false = true ∨ ∃ r c, SpriteCovers rows x0 y0 r c ∧ pixel (drawSprite x0 y0 rows fb).fb r c = true) ↔
        ∃ r c, SpriteCovers rows x0 y0 r c ∧ pixel fb r c = false := by
      rw [or_iff_right Bool.false_ne_true]
      refine exists₂_congr fun r c => and_congr_right fun hc => ?_
      rw [hfirst.covered r c hc, Bool.not_eq_true']
    exact hsecond.coll_iff.trans hfresh

/-- Settles O57: a mask has every bit of what it lets through. -/
theorem randMasksTheInputByte : Obligations.RandMasksTheInputByte := by
  unfold Obligations.RandMasksTheInputByte
  intro x kk s
  have hvalue : reg (countDraw (randWith (Config.freeRandByte s.draws) x kk s)) x = Config.freeRandByte s.draws &&& kk :=
    reg_writeReg_same _ _ _
  refine ⟨_, rfl, rfl, fun r hr => reg_writeReg_other _ s hr, hvalue, fun k hk => ?_⟩
  rw [hvalue, BitVec.getLsbD_and, Bool.and_eq_true] at hk
  exact hk.2

/-- A key skip on a number that names no key is the fault of R185. -/
theorem skipOnKey_fault {down : Bool} {x : Reg} {s : State} (h : 0xF < (reg s x).toNat) :
    ∃ t, skipOnKey down x s = .next t ∧ Halts (.indexOutOfRange (reg s x) (s.pc - 2)) s t := by
  rcases skipOnKey_cases down x s with ⟨k, hk, -⟩ | ⟨-, e⟩
  · exact absurd (hk ▸ k.isLt) (Nat.not_lt.mpr h)
  · exact ⟨_, e, takeFault_halts _ s⟩

theorem skipOnKey_key {down : Bool} {x : Reg} {s : State} {k : Fin 16} (h : (reg s x).toNat = k.val) :
    skipOnKey down x s = .next { s with pc := if s.keys[k] = down then s.pc + 2 else s.pc } := by
  rcases skipOnKey_cases down x s with ⟨j, hj, e⟩ | ⟨hno, -⟩
  · obtain rfl : j = k := Fin.ext (hj.symm.trans h)
    rw [e, skipIf_beq]
  · exact absurd (h ▸ k.isLt) (Nat.not_lt.mpr hno)

/-- Settles O58: the two skips ask for the two states of one key. -/
theorem keySkipsReadTheSampledKeys : Obligations.KeySkipsReadTheSampledKeys := by
  unfold Obligations.KeySkipsReadTheSampledKeys
  intro x s
  refine ⟨fun k hk => ⟨skipOnKey_key hk, (skipOnKey_key hk).trans ?_⟩, fun h => ⟨skipOnKey_fault h, skipOnKey_fault h⟩⟩
  cases s.keys[k]
  · rfl
  · rfl

/-- Settles O60: each writes one timer or one register. -/
theorem timerInstructionsMoveTheTimers : Obligations.TimerInstructionsMoveTheTimers := by
  unfold Obligations.TimerInstructionsMoveTheTimers
  intro x s
  exact ⟨⟨_, rfl, reg_writeReg_same _ _ _, onlyRegs_writeReg _ _ _⟩, rfl, _, rfl, rfl, bne_iff_ne⟩

end Sys2Proof.Machine
end
